-- ==== Sys2Proof/Config.lean ====
section
/-! DEFINITION. The parameters of the hardware, under the names of 00_scope.md R4, and what its spec leaves
free. The shape parameters fix the types of Word.lean and Machine/State.lean; the parameters that a machine
can be instantiated with anew are the fields of `Params`, whose values for this hardware are
`Machine.hardware` (Machine/Params.lean; log 23). -/

namespace Sys2Proof.Config

/-! ## Shape of the state -/

/-- `NREG`: general registers. -/
abbrev nreg : Nat := 16

/-- `VLEN`: width of a general register. -/
abbrev vlen : Nat := 8

/-- `ILEN`: width of the index register. -/
abbrev ilen : Nat := 16

/-- `PCLEN`: width of the program counter, and of a call stack slot, which holds one (10_state.md R18). -/
abbrev pclen : Nat := 16

/-- `SPLEN`: width of the stack pointer. -/
abbrev splen : Nat := 8

/-- `TLEN`: width of each timer. -/
abbrev tlen : Nat := 8

/-- `STACK_SLOTS`: call stack slots. -/
abbrev stackSlots : Nat := 16

/-- `FB_ROWS`: rows of the framebuffer. -/
abbrev fbRows : Nat := 32

/-- `FB_ROW_BYTES`: bytes in a row of the framebuffer. -/
abbrev fbRowBytes : Nat := 8

/-- `NKEYS`: keys in the matrix. -/
abbrev nkeys : Nat := 16

/-- `INSTR_WIDTH`: bytes of an instruction, "throughout" (30_encoding.md R70). -/
abbrev instrWidth : Nat := 2

/-! ## Parameters of a machine -/

/-- The parameters a machine is instantiated with (R4; 93_implementation_defined.md U13, U15, U16). -/
structure Params where
  /-- `INTERP_BASE`. -/
  interpBase : Nat
  /-- `INTERP_SIZE`. -/
  interpSize : Nat
  /-- `PROG_BASE` (U16). -/
  progBase : Nat
  /-- `PROG_SIZE` (U16). -/
  progSize : Nat
  /-- `ROM_MAX`, the longest program image (U16). -/
  romMax : Nat
  /-- `PC_RESET`, the entry point of every program. -/
  pcReset : BitVec pclen
  /-- `CALL_LINK_OFFSET`, what CALL adds to `pc` before pushing it (U15). -/
  callLinkOffset : BitVec pclen
  /-- `FONT_BASE`. -/
  fontBase : Nat
  /-- `GLYPH_BYTES`. -/
  glyphBytes : Nat
  /-- `NGLYPH`. -/
  nglyph : Nat
  /-- `FONT`, the glyph bytes (U13). -/
  font : List (BitVec 8)
deriving DecidableEq, Repr

/-- The parameters fit each other as R4 says they do: the image limit is the program window, the font is
`NGLYPH` glyphs of `GLYPH_BYTES` bytes and lies in the interpreter window, the program window starts where the
interpreter window ends or above it, and the entry point is its first byte (20_memory.md R51). -/
def Params.coherent (p : Params) : Bool :=
  p.romMax == p.progSize && p.font.length == p.nglyph * p.glyphBytes &&
    decide (p.interpBase ≤ p.fontBase) && decide (p.fontBase + p.font.length ≤ p.interpBase + p.interpSize) &&
    decide (p.interpBase + p.interpSize ≤ p.progBase) && p.pcReset.toNat == p.progBase

/-! ## Inputs and rates -/

/-- `RandomByte` (R4, 42_load_alu.md R132, D8): the byte consumed by the `n`-th random draw, under no law.
FREE VALUE, no body: nothing can be proved about which byte it is (log 3). -/
opaque randomByte : Nat → BitVec 8

/-- `CPU_RATE`, the Driver's nominal steps a second; no rule and no definition depends on it (R4, R214). -/
def cpuRate : Nat := 500

/-- `TIMER_RATE`, the Driver's nominal timer ticks a second; no rule and no definition depends on it. -/
def timerRate : Nat := 60

end Sys2Proof.Config
end

