-- ==== Sys2Proof/Word.lean ====
section
/-! DEFINITION. Word types of the CHIP-8 core: bytes, 16-bit words, the 4-bit and 12-bit fields of an
instruction word, register and key numbers (10_state.md R10, 30_encoding.md R71). -/

namespace Sys2Proof

/-- A general register, a timer, a byte of memory or of the framebuffer (10_state.md R12, R19, R22, R23). -/
abbrev Byte := BitVec 8

/-- An instruction word, `pc`, `I` or a call stack slot (10_state.md R15, R16, R18, R21). -/
abbrev Word := BitVec 16

/-- The 4-bit fields `T`, `X`, `Y`, `N` of an instruction word (30_encoding.md R71). -/
abbrev Nibble := BitVec 4

/-- The 12-bit field `NNN` of an instruction word (30_encoding.md R71). -/
abbrev Addr12 := BitVec 12

/-- The number of a general register V0..VF (10_state.md R12). -/
abbrev Reg := Fin Config.nreg

/-- The number of a logical key 0..F (10_state.md R24). -/
abbrev KeyNumber := Fin Config.nkeys

end Sys2Proof
end

