-- ==== Sys2Proof/Syntax.lean ====
section
/-! DEFINITION. The instruction set as syntax: one constructor per row of spec/opcode_table.json, in the
table's order (30_encoding.md R74). Operands are the fields of the word (R71, R73), all unsigned. -/

namespace Sys2Proof

/-- The 35 instructions (30_encoding.md R74). The mnemonics are labels only (R79): `sknp` skips when the key
IS pressed (R161), `rnd` shifts left (R132), `subn` writes V`y` (R130). -/
inductive Instr where
  /-- 00E0 `CLS` (R151). -/
  | cls
  /-- 00EE `RET` (R95). -/
  | ret
  /-- 0nnn `SYS nnn`, `nnn` neither 0E0 nor 0EE (R96). -/
  | sys (nnn : Addr12)
  /-- 1nnn `JP nnn` (R97). -/
  | jp (nnn : Addr12)
  /-- 2nnn `CALL nnn` (R98). -/
  | call (nnn : Addr12)
  /-- 3xkk `SE Vx, kk` (R111). -/
  | seImm (x : Reg) (kk : Byte)
  /-- 4xkk `SNE Vx, kk` (R112). -/
  | sneImm (x : Reg) (kk : Byte)
  /-- 5xy0 `SE Vx, Vy` (R113). -/
  | seReg (x y : Reg)
  /-- 6xkk `LD Vx, kk` (R120). -/
  | ldImm (x : Reg) (kk : Byte)
  /-- 7xkk `ADD Vx, kk` (R121). -/
  | addImm (x : Reg) (kk : Byte)
  /-- 8xy0 `LD Vx, Vy` (R122). -/
  | ldReg (x y : Reg)
  /-- 8xy1 `OR Vx, Vy` (R123). -/
  | orReg (x y : Reg)
  /-- 8xy2 `AND Vx, Vy` (R124). -/
  | andReg (x y : Reg)
  /-- 8xy3 `XOR Vx, Vy` (R125). -/
  | xorReg (x y : Reg)
  /-- 8xy4 `ADD Vx, Vy` (R127). -/
  | addReg (x y : Reg)
  /-- 8xy5 `SUB Vx, Vy` (R128). -/
  | sub (x y : Reg)
  /-- 8xy6 `SHR Vx`; the field `y` stands in the word and is ignored (R72, R129). -/
  | shr (x y : Reg)
  /-- 8xy7 `SUBN Vx, Vy` (R130). -/
  | subn (x y : Reg)
  /-- 8xyE `SHL Vx`; the field `y` stands in the word and is ignored (R72, R131). -/
  | shl (x y : Reg)
  /-- 9xy0 `SNE Vx, Vy` (R114). -/
  | sneReg (x y : Reg)
  /-- Annn `LD I, nnn` (R140). -/
  | ldI (nnn : Addr12)
  /-- Bnnn `JP V0, nnn` (R99). -/
  | jpV0 (nnn : Addr12)
  /-- Cxkk `RND Vx, kk` (R132). -/
  | rnd (x : Reg) (kk : Byte)
  /-- Dxyn `DRW Vx, Vy, n`, `n` = 0 included (R153, R154). -/
  | drw (x y : Reg) (n : Nibble)
  /-- Ex9E `SKP Vx` (R160). -/
  | skp (x : Reg)
  /-- ExA1 `SKNP Vx` (R161). -/
  | sknp (x : Reg)
  /-- Fx07 `LD Vx, DT` (R163). -/
  | ldVxDT (x : Reg)
  /-- Fx0A `LD Vx, K` (R162). -/
  | ldVxK (x : Reg)
  /-- Fx15 `LD DT, Vx` (R164). -/
  | ldDTVx (x : Reg)
  /-- Fx18 `LD ST, Vx` (R165). -/
  | ldSTVx (x : Reg)
  /-- Fx1E `ADD I, Vx` (R141). -/
  | addI (x : Reg)
  /-- Fx29 `LD F, Vx` (R142). -/
  | ldF (x : Reg)
  /-- Fx33 `LD B, Vx` (R143). -/
  | ldB (x : Reg)
  /-- Fx55 `LD [I], Vx` (R144). -/
  | storeRegs (x : Reg)
  /-- Fx65 `LD Vx, [I]` (R145). -/
  | loadRegs (x : Reg)
deriving DecidableEq, Repr

end Sys2Proof
end

