-- ==== Sys2Proof/Decode.lean ====
section
/-! DEFINITION. The instruction codec: the fields of a word (30_encoding.md R71), the decode procedure
(R75), total and rejecting by name, then the encoder written from the same layouts (R72, R74), and the
opcode table as rows of mask and match (R74). -/

namespace Sys2Proof

/-! ## Fields (R71) and byte order (20_memory.md R44, R47) -/

/-- `T = w[15:12]`, the top nibble. -/
def fieldT (w : Word) : Nibble := w.extractLsb' 12 4

/-- `X = w[11:8]` as a 4-bit value. -/
def fieldXBits (w : Word) : Nibble := w.extractLsb' 8 4

/-- `Y = w[7:4]` as a 4-bit value. -/
def fieldYBits (w : Word) : Nibble := w.extractLsb' 4 4

/-- A 4-bit field that names a general register (10_state.md R12). -/
def regOfBits (b : Nibble) : Reg := b.toFin

/-- The 4-bit field that names a general register. -/
def bitsOfReg (r : Reg) : Nibble := BitVec.ofFin r

/-- `X = w[11:8]`, a register number. -/
def fieldX (w : Word) : Reg := regOfBits (fieldXBits w)

/-- `Y = w[7:4]`, a register number. -/
def fieldY (w : Word) : Reg := regOfBits (fieldYBits w)

/-- `N = w[3:0]`. -/
def fieldN (w : Word) : Nibble := w.extractLsb' 0 4

/-- `KK = w[7:0]`. -/
def fieldKK (w : Word) : Byte := w.extractLsb' 0 8

/-- `NNN = w[11:0]`. -/
def fieldNNN (w : Word) : Addr12 := w.extractLsb' 0 12

/-- The big-endian word of two bytes: the byte of the lower address is bits 15..8 (20_memory.md R44, R47). -/
def wordOfBytes (hi lo : Byte) : Word := hi ++ lo

/-- Bits 15..8 of a word, the byte stored at the lower address (20_memory.md R47). -/
def hiByte (w : Word) : Byte := w.extractLsb' 8 8

/-- Bits 7..0 of a word, the byte stored at the higher address (20_memory.md R47). -/
def loByte (w : Word) : Byte := w.extractLsb' 0 8

/-! ## Decoding (R75) -/

/-- Why bytes are not an instruction. -/
inductive Reject where
  /-- The word selects no row of the opcode table (30_encoding.md R77). -/
  | invalidOpcode (w : Word)
  /-- Fewer than the two bytes of an instruction were given (R70); a fetch always gives two. -/
  | truncated
deriving DecidableEq, Repr

/-- Family 0: the comparison is on the whole word (R75). -/
def decode0 (w : Word) : Instr :=
  if w = 0x00E0#16 then .cls
  else if w = 0x00EE#16 then .ret
  else .sys (fieldNNN w)

/-- Family 8: by the low nibble (R75). -/
def decode8 (w : Word) : Except Reject Instr :=
  if fieldN w = 0x0#4 then .ok (.ldReg (fieldX w) (fieldY w))
  else if fieldN w = 0x1#4 then .ok (.orReg (fieldX w) (fieldY w))
  else if fieldN w = 0x2#4 then .ok (.andReg (fieldX w) (fieldY w))
  else if fieldN w = 0x3#4 then .ok (.xorReg (fieldX w) (fieldY w))
  else if fieldN w = 0x4#4 then .ok (.addReg (fieldX w) (fieldY w))
  else if fieldN w = 0x5#4 then .ok (.sub (fieldX w) (fieldY w))
  else if fieldN w = 0x6#4 then .ok (.shr (fieldX w) (fieldY w))
  else if fieldN w = 0x7#4 then .ok (.subn (fieldX w) (fieldY w))
  else if fieldN w = 0xE#4 then .ok (.shl (fieldX w) (fieldY w))
  else .error (.invalidOpcode w)

/-- Family E: by the low byte (R75). -/
def decodeE (w : Word) : Except Reject Instr :=
  if fieldKK w = 0x9E#8 then .ok (.skp (fieldX w))
  else if fieldKK w = 0xA1#8 then .ok (.sknp (fieldX w))
  else .error (.invalidOpcode w)

/-- Family F: by the low byte (R75). -/
def decodeF (w : Word) : Except Reject Instr :=
  if fieldKK w = 0x07#8 then .ok (.ldVxDT (fieldX w))
  else if fieldKK w = 0x0A#8 then .ok (.ldVxK (fieldX w))
  else if fieldKK w = 0x15#8 then .ok (.ldDTVx (fieldX w))
  else if fieldKK w = 0x18#8 then .ok (.ldSTVx (fieldX w))
  else if fieldKK w = 0x1E#8 then .ok (.addI (fieldX w))
  else if fieldKK w = 0x29#8 then .ok (.ldF (fieldX w))
  else if fieldKK w = 0x33#8 then .ok (.ldB (fieldX w))
  else if fieldKK w = 0x55#8 then .ok (.storeRegs (fieldX w))
  else if fieldKK w = 0x65#8 then .ok (.loadRegs (fieldX w))
  else .error (.invalidOpcode w)

/-- Families 8 to F by the top nibble (R75). -/
def decodeHigh (w : Word) : Except Reject Instr :=
  if fieldT w = 0x8#4 then decode8 w
  else if fieldT w = 0x9#4 then
    if fieldN w = 0x0#4 then .ok (.sneReg (fieldX w) (fieldY w)) else .error (.invalidOpcode w)
  else if fieldT w = 0xA#4 then .ok (.ldI (fieldNNN w))
  else if fieldT w = 0xB#4 then .ok (.jpV0 (fieldNNN w))
  else if fieldT w = 0xC#4 then .ok (.rnd (fieldX w) (fieldKK w))
  else if fieldT w = 0xD#4 then .ok (.drw (fieldX w) (fieldY w) (fieldN w))
  else if fieldT w = 0xE#4 then decodeE w
  else decodeF w

/-- The decode procedure, total on all 65536 words and a function of the word alone (R75). -/
def decode (w : Word) : Except Reject Instr :=
  if fieldT w = 0x0#4 then .ok (decode0 w)
  else if fieldT w = 0x1#4 then .ok (.jp (fieldNNN w))
  else if fieldT w = 0x2#4 then .ok (.call (fieldNNN w))
  else if fieldT w = 0x3#4 then .ok (.seImm (fieldX w) (fieldKK w))
  else if fieldT w = 0x4#4 then .ok (.sneImm (fieldX w) (fieldKK w))
  else if fieldT w = 0x5#4 then
    if fieldN w = 0x0#4 then .ok (.seReg (fieldX w) (fieldY w)) else .error (.invalidOpcode w)
  else if fieldT w = 0x6#4 then .ok (.ldImm (fieldX w) (fieldKK w))
  else if fieldT w = 0x7#4 then .ok (.addImm (fieldX w) (fieldKK w))
  else decodeHigh w

/-- Decoding from a byte list: the first two bytes, big-endian, and the bytes after them (R70). -/
def decodeBytes : List Byte → Except Reject (Instr × List Byte)
  | hi :: lo :: rest => (decode (wordOfBytes hi lo)).map fun i => (i, rest)
  | [_] => .error .truncated
  | [] => .error .truncated

/-! ## Encoding (R72, R74) -/

/-- Formats `A`: `{T, NNN}`. -/
def wordA (t : Nibble) (nnn : Addr12) : Word := t ++ nnn

/-- Formats `XK` and `XF`: `{T, X, KK}`, the low byte an operand or fixed. -/
def wordXK (t : Nibble) (x : Reg) (kk : Byte) : Word := t ++ bitsOfReg x ++ kk

/-- Formats `XY` and `XYN`: `{T, X, Y, N}`, the low nibble fixed or an operand. -/
def wordXYN (t : Nibble) (x y : Reg) (n : Nibble) : Word := t ++ bitsOfReg x ++ bitsOfReg y ++ n

/-- The word of an instruction (R74). -/
def encode : Instr → Word
  | .cls => 0x00E0#16
  | .ret => 0x00EE#16
  | .sys nnn => wordA 0x0#4 nnn
  | .jp nnn => wordA 0x1#4 nnn
  | .call nnn => wordA 0x2#4 nnn
  | .seImm x kk => wordXK 0x3#4 x kk
  | .sneImm x kk => wordXK 0x4#4 x kk
  | .seReg x y => wordXYN 0x5#4 x y 0x0#4
  | .ldImm x kk => wordXK 0x6#4 x kk
  | .addImm x kk => wordXK 0x7#4 x kk
  | .ldReg x y => wordXYN 0x8#4 x y 0x0#4
  | .orReg x y => wordXYN 0x8#4 x y 0x1#4
  | .andReg x y => wordXYN 0x8#4 x y 0x2#4
  | .xorReg x y => wordXYN 0x8#4 x y 0x3#4
  | .addReg x y => wordXYN 0x8#4 x y 0x4#4
  | .sub x y => wordXYN 0x8#4 x y 0x5#4
  | .shr x y => wordXYN 0x8#4 x y 0x6#4
  | .subn x y => wordXYN 0x8#4 x y 0x7#4
  | .shl x y => wordXYN 0x8#4 x y 0xE#4
  | .sneReg x y => wordXYN 0x9#4 x y 0x0#4
  | .ldI nnn => wordA 0xA#4 nnn
  | .jpV0 nnn => wordA 0xB#4 nnn
  | .rnd x kk => wordXK 0xC#4 x kk
  | .drw x y n => wordXYN 0xD#4 x y n
  | .skp x => wordXK 0xE#4 x 0x9E#8
  | .sknp x => wordXK 0xE#4 x 0xA1#8
  | .ldVxDT x => wordXK 0xF#4 x 0x07#8
  | .ldVxK x => wordXK 0xF#4 x 0x0A#8
  | .ldDTVx x => wordXK 0xF#4 x 0x15#8
  | .ldSTVx x => wordXK 0xF#4 x 0x18#8
  | .addI x => wordXK 0xF#4 x 0x1E#8
  | .ldF x => wordXK 0xF#4 x 0x29#8
  | .ldB x => wordXK 0xF#4 x 0x33#8
  | .storeRegs x => wordXK 0xF#4 x 0x55#8
  | .loadRegs x => wordXK 0xF#4 x 0x65#8

/-- The two bytes of an instruction in memory order (R70, 20_memory.md R47). -/
def encodeBytes (i : Instr) : List Byte := [hiByte (encode i), loByte (encode i)]

/-! ## The opcode table as rows of mask and match (R74) -/

/-- One row of the opcode map: a word `w` selects it when `w & mask = pattern` (R74). -/
structure OpcodeRow where
  mask : Word
  pattern : Word
deriving DecidableEq, Repr

/-- The row's selection test (R74). -/
def OpcodeRow.selects (r : OpcodeRow) (w : Word) : Bool := w &&& r.mask == r.pattern

/-- Rows 1 to 5 and 6 to 10 of the opcode map (R74). -/
def opcodeRowsA : List OpcodeRow :=
  [⟨0xFFFF#16, 0x00E0#16⟩, ⟨0xFFFF#16, 0x00EE#16⟩, ⟨0xF000#16, 0x0000#16⟩, ⟨0xF000#16, 0x1000#16⟩, ⟨0xF000#16, 0x2000#16⟩,
   ⟨0xF000#16, 0x3000#16⟩, ⟨0xF000#16, 0x4000#16⟩, ⟨0xF00F#16, 0x5000#16⟩, ⟨0xF000#16, 0x6000#16⟩, ⟨0xF000#16, 0x7000#16⟩]

/-- Rows 11 to 24 of the opcode map (R74). -/
def opcodeRowsB : List OpcodeRow :=
  [⟨0xF00F#16, 0x8000#16⟩, ⟨0xF00F#16, 0x8001#16⟩, ⟨0xF00F#16, 0x8002#16⟩, ⟨0xF00F#16, 0x8003#16⟩, ⟨0xF00F#16, 0x8004#16⟩,
   ⟨0xF00F#16, 0x8005#16⟩, ⟨0xF00F#16, 0x8006#16⟩, ⟨0xF00F#16, 0x8007#16⟩, ⟨0xF00F#16, 0x800E#16⟩, ⟨0xF00F#16, 0x9000#16⟩,
   ⟨0xF000#16, 0xA000#16⟩, ⟨0xF000#16, 0xB000#16⟩, ⟨0xF000#16, 0xC000#16⟩, ⟨0xF000#16, 0xD000#16⟩]

/-- Rows 25 to 35 of the opcode map (R74). -/
def opcodeRowsC : List OpcodeRow :=
  [⟨0xF0FF#16, 0xE09E#16⟩, ⟨0xF0FF#16, 0xE0A1#16⟩, ⟨0xF0FF#16, 0xF007#16⟩, ⟨0xF0FF#16, 0xF00A#16⟩, ⟨0xF0FF#16, 0xF015#16⟩,
   ⟨0xF0FF#16, 0xF018#16⟩, ⟨0xF0FF#16, 0xF01E#16⟩, ⟨0xF0FF#16, 0xF029#16⟩, ⟨0xF0FF#16, 0xF033#16⟩, ⟨0xF0FF#16, 0xF055#16⟩,
   ⟨0xF0FF#16, 0xF065#16⟩]

/-- The 35 rows in the table's order; the first row that selects a word wins (R74). -/
def opcodeRows : List OpcodeRow := opcodeRowsA ++ opcodeRowsB ++ opcodeRowsC

/-- The row of an instruction, transcribed from R74 apart from the encoder. -/
def Instr.row : Instr → OpcodeRow
  | .cls => ⟨0xFFFF#16, 0x00E0#16⟩
  | .ret => ⟨0xFFFF#16, 0x00EE#16⟩
  | .sys _ => ⟨0xF000#16, 0x0000#16⟩
  | .jp _ => ⟨0xF000#16, 0x1000#16⟩
  | .call _ => ⟨0xF000#16, 0x2000#16⟩
  | .seImm _ _ => ⟨0xF000#16, 0x3000#16⟩
  | .sneImm _ _ => ⟨0xF000#16, 0x4000#16⟩
  | .seReg _ _ => ⟨0xF00F#16, 0x5000#16⟩
  | .ldImm _ _ => ⟨0xF000#16, 0x6000#16⟩
  | .addImm _ _ => ⟨0xF000#16, 0x7000#16⟩
  | .ldReg _ _ => ⟨0xF00F#16, 0x8000#16⟩
  | .orReg _ _ => ⟨0xF00F#16, 0x8001#16⟩
  | .andReg _ _ => ⟨0xF00F#16, 0x8002#16⟩
  | .xorReg _ _ => ⟨0xF00F#16, 0x8003#16⟩
  | .addReg _ _ => ⟨0xF00F#16, 0x8004#16⟩
  | .sub _ _ => ⟨0xF00F#16, 0x8005#16⟩
  | .shr _ _ => ⟨0xF00F#16, 0x8006#16⟩
  | .subn _ _ => ⟨0xF00F#16, 0x8007#16⟩
  | .shl _ _ => ⟨0xF00F#16, 0x800E#16⟩
  | .sneReg _ _ => ⟨0xF00F#16, 0x9000#16⟩
  | .ldI _ => ⟨0xF000#16, 0xA000#16⟩
  | .jpV0 _ => ⟨0xF000#16, 0xB000#16⟩
  | .rnd _ _ => ⟨0xF000#16, 0xC000#16⟩
  | .drw _ _ _ => ⟨0xF000#16, 0xD000#16⟩
  | .skp _ => ⟨0xF0FF#16, 0xE09E#16⟩
  | .sknp _ => ⟨0xF0FF#16, 0xE0A1#16⟩
  | .ldVxDT _ => ⟨0xF0FF#16, 0xF007#16⟩
  | .ldVxK _ => ⟨0xF0FF#16, 0xF00A#16⟩
  | .ldDTVx _ => ⟨0xF0FF#16, 0xF015#16⟩
  | .ldSTVx _ => ⟨0xF0FF#16, 0xF018#16⟩
  | .addI _ => ⟨0xF0FF#16, 0xF01E#16⟩
  | .ldF _ => ⟨0xF0FF#16, 0xF029#16⟩
  | .ldB _ => ⟨0xF0FF#16, 0xF033#16⟩
  | .storeRegs _ => ⟨0xF0FF#16, 0xF055#16⟩
  | .loadRegs _ => ⟨0xF0FF#16, 0xF065#16⟩

/-! ## The host's view of a table word -/

/-- The instruction word whose bits, numbered as the opcode table numbers them, are the low `nbits` bits of
`w`; bits above are 0. No instruction is longer than one word (R70). -/
def tableWord (nbits w : Nat) : Word := BitVec.ofNat 16 (w % 2 ^ nbits)

/-- What the decoder reads from the word laid out as the hardware stores it, high byte first. -/
def decodeTableWord (nbits w : Nat) : Option Instr :=
  match decodeBytes [hiByte (tableWord nbits w), loByte (tableWord nbits w)] with
  | .ok (i, _) => some i
  | .error _ => none

end Sys2Proof
end

