-- ==== Sys2Proof/Machine/Params.lean ====
section
/-! DEFINITION. The values of the parameters of 00_scope.md R4 for this hardware. Every operation that depends
on one takes a `Config.Params`; the machine of the host's interface is the one at `hardware`. -/

namespace Sys2Proof.Machine

/-- Glyphs 0 to 7 of the default font (20_memory.md R59). -/
def fontLow : List Byte :=
  [0xF0, 0x90, 0x90, 0x90, 0xF0, 0x20, 0x60, 0x20, 0x20, 0x70,
   0xF0, 0x10, 0xF0, 0x80, 0xF0, 0xF0, 0x10, 0xF0, 0x10, 0xF0,
   0x90, 0x90, 0xF0, 0x10, 0x10, 0xF0, 0x80, 0xF0, 0x10, 0xF0,
   0xF0, 0x80, 0xF0, 0x90, 0xF0, 0xF0, 0x10, 0x20, 0x40, 0x40]

/-- Glyphs 8 to F of the default font (20_memory.md R59). -/
def fontHigh : List Byte :=
  [0xF0, 0x90, 0xF0, 0x90, 0xF0, 0xF0, 0x90, 0xF0, 0x10, 0xF0,
   0xF0, 0x90, 0xF0, 0x90, 0x90, 0xE0, 0x90, 0xE0, 0x90, 0xE0,
   0xF0, 0x80, 0x80, 0x80, 0xF0, 0xE0, 0x90, 0x90, 0x90, 0xE0,
   0xF0, 0x80, 0xF0, 0x80, 0xF0, 0xF0, 0x80, 0xF0, 0x80, 0x80]

/-- `FONT`: the parameter's default table (R4, R59). PRESUMED: the source fixes its shape and prints no byte
(N1, D4, G1, log 6). A claim that needs particular glyph bytes names this definition. -/
def font : List Byte := fontLow ++ fontHigh

/-- The parameters of this hardware (R4). The window literals are as printed (D2, log 8), CALL pushes its own
address (D5, log 7), the font is the default table (log 6). -/
def hardware : Config.Params where
  interpBase := 0x000
  interpSize := 0x200
  progBase := 0x200
  progSize := 0x4A0
  romMax := 1184
  pcReset := 0x200
  callLinkOffset := 0
  fontBase := 0
  glyphBytes := 5
  nglyph := 16
  font := font

/-- The first address that belongs to no window of this hardware (20_memory.md R41, R51). -/
def memEnd : Nat := hardware.progBase + hardware.progSize

end Sys2Proof.Machine
end

