-- ==== Sys2Proof/Machine/State.lean ====
section
/-! DEFINITION. The state of the core (10_state.md R10), its value after `PowerOn` (R25), the reasons the
model can stop, and the small enumerations the step protocol names (step codes R92, diagnostics R171). -/

namespace Sys2Proof.Machine

/-- Byte memory: the bytes that differ from what an unlisted address reads as, by rising address. -/
abbrev Memory := List Host.Cell

/-- One row of the framebuffer. -/
abbrev FbRow := Vector Byte Config.fbRowBytes

/-- The framebuffer; pixel (c, r) is bit `7 - c mod 8` of `fb[r][c / 8]` (10_state.md R23). -/
abbrev Framebuffer := Vector FbRow Config.fbRows

/-- The complete state of the core: exactly the fields of 10_state.md R10, under the spec's own names. -/
structure CoreState where
  /-- V0..VF; VF doubles as the flag register (R12, R13). -/
  x : Vector (BitVec Config.vlen) Config.nreg
  /-- The index register, a full 16 bits (R15). -/
  I : BitVec Config.ilen
  /-- The program counter, a byte address (R16). -/
  pc : BitVec Config.pclen
  /-- The stack pointer, index of the most recently pushed return address; 0 is the empty stack (R17). -/
  sp : BitVec Config.splen
  /-- The delay timer (R19). -/
  DT : BitVec Config.tlen
  /-- The sound timer (R20). -/
  ST : BitVec Config.tlen
  /-- The most recently fetched instruction word (R21). -/
  IR : Word
  /-- Both memory windows (R22, 20_memory.md R41). -/
  mem : Memory
  /-- The call stack (R18). -/
  stack : Vector (BitVec Config.pclen) Config.stackSlots
  /-- The display (R23). -/
  fb : Framebuffer
  /-- The key matrix, true = pressed (R24). -/
  key : Vector Bool Config.nkeys
deriving DecidableEq, Repr

/-- What the host's step runs on: the state of the core, and the place reached in the sequence of random bytes.
That sequence is an input and no state of the hardware (10_state.md R11, U12), but the host's step has no input
argument. `coreStep` (Machine/Report.lean) is the step of R10's state alone with the byte as its argument; the
law `step_core` says that `draws` does nothing but select that byte (log 3). -/
structure State extends CoreState where
  /-- MODEL'S OWN: how many random bytes have been drawn; indexes the free value `Config.randomByte` (log 3). -/
  draws : Nat
deriving DecidableEq, Repr

/-- The state after `PowerOn`, before any program is loaded (10_state.md R25, 70_reset_and_hazards.md R200).
`pc`, `sp` and `stack` are the source's; the zeros of the rest are the spec's decision D3 (log 4); `draws`
starts at 0, a DESIGN CHOICE (log 3). -/
def State.reset : State where
  x := Vector.replicate Config.nreg 0
  I := 0
  pc := hardware.pcReset
  sp := 0
  DT := 0
  ST := 0
  IR := 0
  mem := []
  stack := Vector.replicate Config.stackSlots 0
  fb := Vector.replicate Config.fbRows (Vector.replicate Config.fbRowBytes 0)
  key := Vector.replicate Config.nkeys false
  draws := 0

/-- The step codes a handler returns on its normal path (40_step_and_control.md R92). Code -1 is a raised
diagnostic and has no constructor here: it is replaced by 1 before `pc` moves (R93, C10). -/
inductive StepCode where
  /-- 0: the handler has set `pc` itself, or `pc` stays. -/
  | zero
  /-- 1: advance by one instruction. -/
  | one
  /-- 2: skip, advance by two instructions. -/
  | two
deriving DecidableEq, Repr

/-- The four diagnostics (60_exceptions.md R171). None is stored in the state. -/
inductive Diag where
  /-- Raised by decoding an invalid word (30_encoding.md R77). -/
  | invalidOpcode
  /-- Raised by Dxyn, Fx33, Fx55, Fx65 when the span is not allowed (20_memory.md R45, R46). -/
  | invalidAddress
  /-- Raised by 2nnn when slot `sp + 1` does not exist (R98). -/
  | stackOverflow
  /-- Raised by 00EE when `sp` is 0 (R95). -/
  | stackUnderflow
deriving DecidableEq, Repr

/-- What a handler answers: the state it leaves and a step code, or a diagnostic. A raised diagnostic
carries no state, so a failing handler cannot have changed any (40_step_and_control.md R93). -/
inductive Handled where
  | done (s : State) (code : StepCode)
  | raised (d : Diag)
deriving DecidableEq, Repr

/-- The faults of the model. No step and no instruction raises one: the spec gives every word, every failing
access and every failing fetch an effect (R91, R93, R170). -/
inductive Fault where
  /-- `ProgramTooLarge` (60_exceptions.md R177): raised by the `LoadProgram` event alone, on an image of more
  than 1184 bytes; no run takes place. Safe: the hardware aborts there too. -/
  | programTooLarge
deriving DecidableEq, Repr

/-- The refusals of the model. -/
inductive Refusal where
  /-- An instruction that has no meaning yet, by its mnemonic. No arm of `exec` raises it. Safe. -/
  | notModelled (mnemonic : String)
  /-- An event the spec gives no meaning at this point of the sequence (U14: a second `PowerOn`, a second
  load, a run event before the load). Raised by `Session.react` alone, never by a step. Safe. -/
  | eventOutOfOrder
deriving DecidableEq, Repr

end Sys2Proof.Machine
end

