-- ==== Sys2Proof/Machine/Ops.lean ====
section
/-! DEFINITION. The named operations over registers, memory, call stack, framebuffer and program counter
that every meaning is built from, and the one shared operation for a diagnostic (the only kind of
exception this hardware has; it has no return from one, 60_exceptions.md R174, R175). -/

namespace Sys2Proof.Machine

/-! ## Registers (10_state.md R12 to R15) -/

/-- V0, the base of Bnnn, Fx55 and Fx65 (R14). -/
def v0 : Reg := 0

/-- VF, the flag register (R13). -/
def vf : Reg := 15

/-- `x[r]`, the general register V`r`. -/
def State.reg (s : State) (r : Reg) : Byte := s.x[r]

/-- `x[r] <- v`. -/
def State.setReg (s : State) (r : Reg) (v : Byte) : State := { s with x := s.x.set r v }

/-- `x[i] <- b[0]`, `x[i+1] <- b[1]`, ... as long as there are bytes and registers. -/
def State.setRegsFrom (s : State) (i : Nat) : List Byte → State
  | [] => s
  | b :: bs => if h : i < Config.nreg then (s.setReg ⟨i, h⟩ b).setRegsFrom (i + 1) bs else s

/-- `I <- v`. -/
def State.setI (s : State) (v : Word) : State := { s with I := v }

/-- `DT <- v`. -/
def State.setDT (s : State) (v : Byte) : State := { s with DT := v }

/-- `ST <- v`. -/
def State.setST (s : State) (v : Byte) : State := { s with ST := v }

/-- `pc <- v`. -/
def State.setPc (s : State) (v : Word) : State := { s with pc := v }

/-- `IR <- w`, done by every fetch that succeeds (10_state.md R21, D17). -/
def State.latch (s : State) (w : Word) : State := { s with IR := w }

/-- `mem <- m`. -/
def State.setMem (s : State) (m : Memory) : State := { s with mem := m }

/-- `fb <- f`. -/
def State.setFb (s : State) (f : Framebuffer) : State := { s with fb := f }

/-! ## Byte memory (20_memory.md R41 to R47) -/

/-- What an unlisted address of the two windows reads as: 0x00 (10_state.md R25, D3, log 5). -/
def unlistedByte : Byte := 0x00#8

/-- `mem[a]` of a backed address; the window tests of the access primitives keep callers inside them. -/
def Memory.peek : Memory → Nat → Byte
  | [], _ => unlistedByte
  | (b, v) :: m, a => if a = b then v else Memory.peek m a

/-- Every entry of an address removed. -/
def Memory.erase (m : Memory) (a : Nat) : Memory := m.filter fun c => c.1 != a

/-- An entry put before the first entry of a higher address. -/
def Memory.insert : Memory → Nat → Byte → Memory
  | [], a, v => [(a, v)]
  | (b, w) :: m, a, v => if a < b then (a, v) :: (b, w) :: m else (b, w) :: Memory.insert m a v

/-- `mem[a] <- v`, keeping the canonical form: writing what an unlisted address reads as leaves no entry. -/
def Memory.write (m : Memory) (a : Nat) (v : Byte) : Memory :=
  if v = unlistedByte then m.erase a else (m.erase a).insert a v

/-- `mem[a + i] <- bytes[i]`, lowest address first (R46). -/
def Memory.writeBytes (m : Memory) (a : Nat) : List Byte → Memory
  | [] => m
  | b :: bs => (m.write a b).writeBytes (a + 1) bs

/-- Addresses rise from `lo`, all are backed, and no entry equals the unlisted byte. -/
def Memory.wfFrom : Nat → Memory → Bool
  | _, [] => true
  | lo, (a, v) :: m => decide (lo ≤ a) && decide (a < memEnd) && v != unlistedByte && Memory.wfFrom (a + 1) m

/-- The canonical form of byte memory. -/
def Memory.wf (m : Memory) : Bool := Memory.wfFrom 0 m

/-- The window test (R42): `[a, a + n)` lies in the window of base `b` and size `size`, without wrap (D12). -/
abbrev InWindow (a n b size : Nat) : Prop := b ≤ a ∧ a + n ≤ b + size

/-- `InInterp(a, n)` (R42). -/
abbrev InInterpOf (p : Config.Params) (a n : Nat) : Prop := InWindow a n p.interpBase p.interpSize

/-- `InProg(a, n)` (R42). -/
abbrev InProgOf (p : Config.Params) (a n : Nat) : Prop := InWindow a n p.progBase p.progSize

/-- `FetchWord(a)` (R44): big-endian, from the program window only; none is its failure. -/
def fetchWordOf (p : Config.Params) (m : Memory) (a : Nat) : Option Word :=
  if InProgOf p a Config.instrWidth then some (wordOfBytes (m.peek a) (m.peek (a + 1))) else none

/-- `MemRead(a, n)` (R45): wholly inside one window (R43); none is `InvalidAddress`. -/
def memReadOf (p : Config.Params) (m : Memory) (a n : Nat) : Option (List Byte) :=
  if InInterpOf p a n ∨ InProgOf p a n then some ((List.range n).map fun i => m.peek (a + i)) else none

/-- `MemWrite(a, n, bytes)` (R46): wholly inside the program window, checked before any byte is stored;
none is `InvalidAddress`. -/
def memWriteOf (p : Config.Params) (m : Memory) (a : Nat) (bytes : List Byte) : Option Memory :=
  if InProgOf p a bytes.length then some (m.writeBytes a bytes) else none

/-- `InInterp(a, n)` of this hardware. -/
abbrev InInterp (a n : Nat) : Prop := InInterpOf hardware a n

/-- `InProg(a, n)` of this hardware. -/
abbrev InProg (a n : Nat) : Prop := InProgOf hardware a n

/-- `FetchWord(a)` of this hardware. -/
abbrev fetchWord (m : Memory) (a : Nat) : Option Word := fetchWordOf hardware m a

/-- `MemRead(a, n)` of this hardware. -/
abbrev memRead (m : Memory) (a n : Nat) : Option (List Byte) := memReadOf hardware m a n

/-- `MemWrite(a, n, bytes)` of this hardware. -/
abbrev memWrite (m : Memory) (a : Nat) (bytes : List Byte) : Option Memory := memWriteOf hardware m a bytes

/-! ## Call stack (20_memory.md R50) -/

/-- `StackRead(j)`; none when there is no slot `j`. -/
def State.stackRead (s : State) (j : Nat) : Option Word :=
  if h : j < Config.stackSlots then some s.stack[j] else none

/-- `StackWrite(j, v)`; none when there is no slot `j`. -/
def State.stackWrite (s : State) (j : Nat) (v : Word) : Option State :=
  if h : j < Config.stackSlots then some { s with stack := s.stack.set j v } else none

/-- `sp <- v`. -/
def State.setSp (s : State) (v : Byte) : State := { s with sp := v }

/-! ## Framebuffer (10_state.md R23, 20_memory.md R56) -/

/-- All 256 bytes zero (R56). -/
def clearFb : Framebuffer := Vector.replicate Config.fbRows (Vector.replicate Config.fbRowBytes 0x00#8)

/-- Row `r mod 32`. -/
def fbRow (f : Framebuffer) (r : Nat) : FbRow := f[r % Config.fbRows]'(Nat.mod_lt _ (by decide))

/-- Row `r mod 32` replaced. -/
def setFbRow (f : Framebuffer) (r : Nat) (row : FbRow) : Framebuffer :=
  f.set (r % Config.fbRows) row (Nat.mod_lt _ (by decide))

/-- Byte `b mod 8` of a row. -/
def rowByte (row : FbRow) (b : Nat) : Byte := row[b % Config.fbRowBytes]'(Nat.mod_lt _ (by decide))

/-- Byte `b mod 8` of a row replaced. -/
def setRowByte (row : FbRow) (b : Nat) (v : Byte) : FbRow :=
  row.set (b % Config.fbRowBytes) v (Nat.mod_lt _ (by decide))

/-- `fb[r][b]`, with `r` taken mod 32 and `b` mod 8. -/
def fbByte (f : Framebuffer) (r b : Nat) : Byte := rowByte (fbRow f r) b

/-! ## Random byte (42_load_alu.md R132) -/

/-- The byte the next draw gives: a free value (D8, log 3). -/
def State.nextRandom (s : State) : Byte := Config.randomByte s.draws

/-- The state after one draw. -/
def State.afterDraw (s : State) : State := { s with draws := s.draws + 1 }

/-! ## Program counter and the end of a handler (40_step_and_control.md R92 to R94) -/

/-- The number a step code stands for. -/
def StepCode.toNat : StepCode → Nat
  | .zero => 0
  | .one => 1
  | .two => 2

/-- `INSTR_WIDTH * code`, that is `2 * code`. -/
def StepCode.offset (c : StepCode) : Word := BitVec.ofNat Config.pclen (Config.instrWidth * c.toNat)

/-- `pc <- (pc + 2 * code) mod 65536` (R94). -/
def State.advance (s : State) (c : StepCode) : State := s.setPc (s.pc + c.offset)

/-- TAKING A DIAGNOSTIC (R93, 60_exceptions.md R171, R174): nothing is saved, no mode changes, no vector is
taken, no state remembers the kind; execution continues at the next instruction. -/
def State.takeDiag (s : State) (_ : Diag) : State := s.advance .one

/-- How a handler entered in state `s` ends (R92 to R94). -/
def State.settle (s : State) : Handled → State
  | .done t c => t.advance c
  | .raised d => s.takeDiag d

/-- A meaning: the handler runs and the step protocol moves `pc`. -/
def finish (s : State) (h : Handled) : Host.Outcome State Fault Refusal := .next (s.settle h)

/-- A failing primitive raises the diagnostic; a succeeding one hands its value on. -/
def orRaise {α : Type} (d : Diag) : Option α → (α → Handled) → Handled
  | none, _ => .raised d
  | some a, k => k a

/-! ## Where the next instruction is fetched -/

/-- The address the host's word is stored at: `pc` if an instruction can be fetched there, else the entry
point, since no word can be fetched at any other `pc` (R91; log 18). -/
def State.fetchAddr (s : State) : Word := if InProg s.pc.toNat Config.instrWidth then s.pc else hardware.pcReset

/-- The state with `w` stored where the next step fetches. -/
def State.placeWord (s : State) (w : Word) : State :=
  { s with pc := s.fetchAddr, mem := s.mem.writeBytes s.fetchAddr.toNat [hiByte w, loByte w] }

end Sys2Proof.Machine
end

