-- ==== Sys2Proof/Machine/Operands.lean ====
section
/-! DEFINITION. Operand forms (30_encoding.md R73, 43_index_memory.md R146): immediates and addresses
widened without sign, the register ranges of Fx55 and Fx65, the decimal digits of Fx33, the glyph address
of Fx29, the key queries of Ex9E, ExA1 and Fx0A, the shift of Cxkk. -/

namespace Sys2Proof.Machine

/-- `zext_16(NNN)` (R73, R97). -/
def addrOf (nnn : Addr12) : Word := nnn.setWidth Config.pclen

/-- `zext_16(v)` of a register's value (R99, R141, R142). -/
def wide (v : Byte) : Word := v.setWidth 16

/-- `[x[0], ..., x[X]]`, the bytes Fx55 stores (R144). -/
def State.regsUpTo (s : State) (x : Reg) : List Byte := s.x.toList.take (x.val + 1)

/-- `[h, t, u]`: hundreds, tens and units of a byte (R143). -/
def bcdDigits (v : Byte) : List Byte :=
  [BitVec.ofNat 8 (v.toNat / 100), BitVec.ofNat 8 (v.toNat / 10 % 10), BitVec.ofNat 8 (v.toNat % 10)]

/-- `GLYPH_BYTES * zext_16(v)`, that is `5 * zext_16(v)`, not masked to a digit (R142). -/
def glyphAddr (p : Config.Params) (v : Byte) : Word := BitVec.ofNat Config.ilen (p.glyphBytes * v.toNat)

/-- "is pressed" (60_exceptions.md R185): a number above 15 names no key (45_keyboard_timer.md R160, D13). -/
def State.isPressed (s : State) (k : Byte) : Bool :=
  if h : k.toNat < Config.nkeys then s.key[k.toNat] else false

/-- "lowest-indexed pressed key, else none" (R185, 45_keyboard_timer.md R162). -/
def State.lowestKey (s : State) : Option KeyNumber := (List.finRange Config.nkeys).find? fun k => s.key[k]

/-- The number of a key as a register value (R162). -/
def keyByte (k : KeyNumber) : Byte := BitVec.ofNat 8 k.val

/-- `(v << (r & KK)) mod 256`: the shift is on unbounded integers, so 8 or more gives 0 (R132, D7, log 10). -/
def shiftByRandom (v r kk : Byte) : Byte := v <<< (r &&& kk).toNat

/-- The step code of a skip (41_skip.md R110). -/
def skipCode (c : Bool) : StepCode := if c then .two else .one

end Sys2Proof.Machine
end

