-- ==== Sys2Proof/Machine/Control.lean ====
section
/-! DEFINITION. Control transfer: 00EE, 0nnn, 1nnn, 2nnn, Bnnn (40_step_and_control.md R95 to R99). -/

namespace Sys2Proof.Machine

/-- 00EE (R95): `StackUnderflow` when `sp = 0` (D10). A slot number of 16 or more, which no reachable state
has, fails in `StackRead` (R50) and is reported as `StackOverflow` (log 16). -/
def handleRet (s : State) : Handled :=
  if s.sp = 0#8 then .raised .stackUnderflow
  else orRaise .stackOverflow (s.stackRead s.sp.toNat) fun a => .done ((s.setPc a).setSp (s.sp - 1#8)) .zero

/-- 00EE `RET` (R95). -/
def execRet (s : State) : Host.Outcome State Fault Refusal := finish s (handleRet s)

/-- 0nnn (R96): nothing is read, nothing is written, `pc` stays. -/
def handleSys (_ : Addr12) (s : State) : Handled := .done s .zero

/-- 0nnn `SYS nnn` (R96). -/
def execSys (nnn : Addr12) (s : State) : Host.Outcome State Fault Refusal := finish s (handleSys nnn s)

/-- 1nnn (R97): the target is not checked. -/
def handleJp (nnn : Addr12) (s : State) : Handled := .done (s.setPc (addrOf nnn)) .zero

/-- 1nnn `JP nnn` (R97). -/
def execJp (nnn : Addr12) (s : State) : Host.Outcome State Fault Refusal := finish s (handleJp nnn s)

/-- 2nnn (R98): pushes the address of the CALL itself (D5, log 7) on slot `sp + 1`; `StackOverflow` when
there is no such slot. -/
def handleCall (p : Config.Params) (nnn : Addr12) (s : State) : Handled :=
  orRaise .stackOverflow (s.stackWrite (s.sp.toNat + 1) (s.pc + p.callLinkOffset)) fun t =>
    .done ((t.setSp (t.sp + 1#8)).setPc (addrOf nnn)) .zero

/-- 2nnn `CALL nnn` (R98). -/
def execCall (nnn : Addr12) (s : State) : Host.Outcome State Fault Refusal := finish s (handleCall hardware nnn s)

/-- Bnnn (R99): always V0; the sum is kept whole. -/
def handleJpV0 (nnn : Addr12) (s : State) : Handled := .done (s.setPc (wide (s.reg v0) + addrOf nnn)) .zero

/-- Bnnn `JP V0, nnn` (R99). -/
def execJpV0 (nnn : Addr12) (s : State) : Host.Outcome State Fault Refusal := finish s (handleJpV0 nnn s)

end Sys2Proof.Machine
end

