-- ==== Sys2Proof/Machine/Blit.lean ====
section
/-! DEFINITION. The sprite XOR-blit engine (44_display.md R152), byte by byte as the rule states it. -/

namespace Sys2Proof.Machine

/-- `lo = (xc / 8) mod 8`, the left destination byte. -/
def leftByte (xc : Byte) : Nat := xc.toNat / 8 % Config.fbRowBytes

/-- `hi = (lo + 1) mod 8`, the right destination byte (horizontal wrap). -/
def rightByte (xc : Byte) : Nat := (leftByte xc + 1) % Config.fbRowBytes

/-- `s = xc mod 8`, the bit offset inside the left byte. -/
def bitShift (xc : Byte) : Nat := xc.toNat % 8

/-- `lpart = byte >> s`. -/
def leftPart (xc b : Byte) : Byte := b >>> bitShift xc

/-- `hpart = (byte << (8 - s)) mod 256`, 0 when `s = 0`. -/
def rightPart (xc b : Byte) : Byte := b <<< (8 - bitShift xc)

/-- Whether one sprite byte meets a lit pixel of a row, on the bytes before the row's XOR. -/
def rowCollides (xc b : Byte) (row : FbRow) : Bool :=
  (rowByte row (leftByte xc) &&& leftPart xc b) != 0#8 || (rowByte row (rightByte xc) &&& rightPart xc b) != 0#8

/-- One sprite byte XORed into a row. -/
def xorRow (xc b : Byte) (row : FbRow) : FbRow :=
  let row1 := setRowByte row (leftByte xc) (rowByte row (leftByte xc) ^^^ leftPart xc b)
  setRowByte row1 (rightByte xc) (rowByte row1 (rightByte xc) ^^^ rightPart xc b)

/-- The loop of R152 from destination row `r` (taken mod 32) on, with the sticky flag so far. -/
def blitFrom (xc : Byte) (r : Nat) (c : Bool) (f : Framebuffer) : List Byte → Framebuffer × Bool
  | [] => (f, c)
  | b :: bs =>
    blitFrom xc (r + 1) (c || rowCollides xc b (fbRow f r)) (setFbRow f r (xorRow xc b (fbRow f r))) bs

/-- `Blit(xc, yc, bytes)`: the framebuffer after the draw and the collision flag (R152). -/
def blit (xc yc : Byte) (bytes : List Byte) (f : Framebuffer) : Framebuffer × Bool :=
  blitFrom xc yc.toNat false f bytes

end Sys2Proof.Machine
end

