-- ==== Sys2Proof/Machine/Flags.lean ====
section
/-! DEFINITION. The values instructions write to VF (10_state.md R13) and the order in which flag and
result are written (42_load_alu.md R126). -/

namespace Sys2Proof.Machine

/-- A condition as the byte 1 or 0. -/
def flagByte (c : Bool) : Byte := if c then 1#8 else 0#8

/-- 8xy4: 1 if the sum on unbounded integers is above 255 (R127). -/
def carryFlag (a b : Byte) : Byte := flagByte (decide (a.toNat + b.toNat > 255))

/-- 8xy5 and, with the operands exchanged, 8xy7: 1 if `a > b`, unsigned and strict (R128, R130). -/
def greaterFlag (a b : Byte) : Byte := flagByte (decide (a.toNat > b.toNat))

/-- 8xy6: the bit shifted out to the right, 0 or 1 (R129). -/
def lowBitFlag (a : Byte) : Byte := a &&& 0x01#8

/-- 8xyE: bit 7 in place, 0x80 or 0x00, not normalised (R131). -/
def highBitFlag (a : Byte) : Byte := a &&& 0x80#8

/-- Flag first, then the result from the registers as they are after the flag write (R126, D9, log 9). -/
def State.flagThenResult (s : State) (flag : Byte) (dst : Reg) (result : State → Byte) : State :=
  let t := s.setReg vf flag
  t.setReg dst (result t)

end Sys2Proof.Machine
end

