-- ==== Sys2Proof/Machine/Display.lean ====
section
/-! DEFINITION. The display instructions 00E0 and Dxyn (44_display.md R151, R153, R154). -/

namespace Sys2Proof.Machine

/-- 00E0 (R151). -/
def handleCls (s : State) : Handled := .done (s.setFb clearFb) .one

/-- 00E0 `CLS` (R151). -/
def execCls (s : State) : Host.Outcome State Fault Refusal := finish s (handleCls s)

/-- The bytes of an `n`-row sprite at `I`; no access is made for zero rows (R153, R154, D14, log 12). -/
def spriteBytes (p : Config.Params) (s : State) (n : Nibble) : Option (List Byte) :=
  if n = 0#4 then some [] else memReadOf p s.mem s.I.toNat n.toNat

/-- Dxyn (R153, R154): the coordinates are read before VF is written. -/
def handleDrw (p : Config.Params) (x y : Reg) (n : Nibble) (s : State) : Handled :=
  orRaise .invalidAddress (spriteBytes p s n) fun b =>
    let drawn := blit (s.reg x) (s.reg y) b s.fb
    .done ((s.setFb drawn.1).setReg vf (flagByte drawn.2)) .one

/-- Dxyn `DRW Vx, Vy, n` (R153, R154). -/
def execDrw (x y : Reg) (n : Nibble) (s : State) : Host.Outcome State Fault Refusal :=
  finish s (handleDrw hardware x y n s)

end Sys2Proof.Machine
end

