-- ==== Sys2Proof/Machine/IndexMemory.lean ====
section
/-! DEFINITION. Index register, stores and loads: Annn, Fx1E, Fx29, Fx33, Fx55, Fx65
(43_index_memory.md R140 to R146). No access changes `I` (D24). -/

namespace Sys2Proof.Machine

/-- Annn (R140). -/
def handleLdI (nnn : Addr12) (s : State) : Handled := .done (s.setI (addrOf nnn)) .one

/-- Annn `LD I, nnn` (R140). -/
def execLdI (nnn : Addr12) (s : State) : Host.Outcome State Fault Refusal := finish s (handleLdI nnn s)

/-- Fx1E (R141): mod 65536, no flag. -/
def handleAddI (x : Reg) (s : State) : Handled := .done (s.setI (s.I + wide (s.reg x))) .one

/-- Fx1E `ADD I, Vx` (R141). -/
def execAddI (x : Reg) (s : State) : Host.Outcome State Fault Refusal := finish s (handleAddI x s)

/-- Fx29 (R142). -/
def handleLdF (p : Config.Params) (x : Reg) (s : State) : Handled := .done (s.setI (glyphAddr p (s.reg x))) .one

/-- Fx29 `LD F, Vx` (R142). -/
def execLdF (x : Reg) (s : State) : Host.Outcome State Fault Refusal := finish s (handleLdF hardware x s)

/-- Store `bytes` at `I`, all or none (20_memory.md R46, D11). -/
def storeAtI (p : Config.Params) (s : State) (bytes : List Byte) : Handled :=
  orRaise .invalidAddress (memWriteOf p s.mem s.I.toNat bytes) fun m => .done (s.setMem m) .one

/-- Fx33 (R143). -/
def handleLdB (p : Config.Params) (x : Reg) (s : State) : Handled := storeAtI p s (bcdDigits (s.reg x))

/-- Fx33 `LD B, Vx` (R143). -/
def execLdB (x : Reg) (s : State) : Host.Outcome State Fault Refusal := finish s (handleLdB hardware x s)

/-- Fx55 (R144). -/
def handleStoreRegs (p : Config.Params) (x : Reg) (s : State) : Handled := storeAtI p s (s.regsUpTo x)

/-- Fx55 `LD [I], Vx` (R144). -/
def execStoreRegs (x : Reg) (s : State) : Host.Outcome State Fault Refusal :=
  finish s (handleStoreRegs hardware x s)

/-- Fx65 (R145): all bytes are read before any register is written. -/
def handleLoadRegs (p : Config.Params) (x : Reg) (s : State) : Handled :=
  orRaise .invalidAddress (memReadOf p s.mem s.I.toNat (x.val + 1)) fun b => .done (s.setRegsFrom 0 b) .one

/-- Fx65 `LD Vx, [I]` (R145). -/
def execLoadRegs (x : Reg) (s : State) : Host.Outcome State Fault Refusal :=
  finish s (handleLoadRegs hardware x s)

end Sys2Proof.Machine
end

