-- ==== Sys2Proof/Machine/KeyTimer.lean ====
section
/-! DEFINITION. Keyboard and timer instructions: Ex9E, ExA1, Fx0A, Fx07, Fx15, Fx18
(45_keyboard_timer.md R160 to R165). -/

namespace Sys2Proof.Machine

/-- Ex9E (R160). -/
def handleSkp (x : Reg) (s : State) : Handled := .done s (skipCode (s.isPressed (s.reg x)))

/-- Ex9E `SKP Vx` (R160). -/
def execSkp (x : Reg) (s : State) : Host.Outcome State Fault Refusal := finish s (handleSkp x s)

/-- ExA1 (R161): the condition of Ex9E, literally (D6). -/
def handleSknp (x : Reg) (s : State) : Handled := .done s (skipCode (s.isPressed (s.reg x)))

/-- ExA1 `SKNP Vx` (R161). -/
def execSknp (x : Reg) (s : State) : Host.Outcome State Fault Refusal := finish s (handleSknp x s)

/-- Fx0A (R162): one poll; with no key down `pc` stays on this instruction. -/
def handleLdVxK (x : Reg) (s : State) : Handled :=
  match s.lowestKey with
  | none => .done s .zero
  | some k => .done (s.setReg x (keyByte k)) .one

/-- Fx0A `LD Vx, K` (R162). -/
def execLdVxK (x : Reg) (s : State) : Host.Outcome State Fault Refusal := finish s (handleLdVxK x s)

/-- Fx07 (R163). -/
def handleLdVxDT (x : Reg) (s : State) : Handled := .done (s.setReg x s.DT) .one

/-- Fx07 `LD Vx, DT` (R163). -/
def execLdVxDT (x : Reg) (s : State) : Host.Outcome State Fault Refusal := finish s (handleLdVxDT x s)

/-- Fx15 (R164). -/
def handleLdDTVx (x : Reg) (s : State) : Handled := .done (s.setDT (s.reg x)) .one

/-- Fx15 `LD DT, Vx` (R164). -/
def execLdDTVx (x : Reg) (s : State) : Host.Outcome State Fault Refusal := finish s (handleLdDTVx x s)

/-- Fx18 (R165): no tone here; pulses come from `TickSound`. -/
def handleLdSTVx (x : Reg) (s : State) : Handled := .done (s.setST (s.reg x)) .one

/-- Fx18 `LD ST, Vx` (R165). -/
def execLdSTVx (x : Reg) (s : State) : Host.Outcome State Fault Refusal := finish s (handleLdSTVx x s)

end Sys2Proof.Machine
end

