-- ==== Sys2Proof/Machine/LoadAlu.lean ====
section
/-! DEFINITION. Loads, arithmetic, logic, shifts and Cxkk: 6xkk, 7xkk, 8xy0 to 8xy7, 8xyE, Cxkk
(42_load_alu.md R120 to R133). All return step code 1 and raise nothing. -/

namespace Sys2Proof.Machine

/-- `x[dst] <- v`, step 1. -/
def writeReg (s : State) (dst : Reg) (v : Byte) : Handled := .done (s.setReg dst v) .one

/-- 6xkk (R120). -/
def handleLdImm (x : Reg) (kk : Byte) (s : State) : Handled := writeReg s x kk

/-- 6xkk `LD Vx, kk` (R120). -/
def execLdImm (x : Reg) (kk : Byte) (s : State) : Host.Outcome State Fault Refusal :=
  finish s (handleLdImm x kk s)

/-- 7xkk (R121): no flag. -/
def handleAddImm (x : Reg) (kk : Byte) (s : State) : Handled := writeReg s x (s.reg x + kk)

/-- 7xkk `ADD Vx, kk` (R121). -/
def execAddImm (x : Reg) (kk : Byte) (s : State) : Host.Outcome State Fault Refusal :=
  finish s (handleAddImm x kk s)

/-- 8xy0 (R122). -/
def handleLdReg (x y : Reg) (s : State) : Handled := writeReg s x (s.reg y)

/-- 8xy0 `LD Vx, Vy` (R122). -/
def execLdReg (x y : Reg) (s : State) : Host.Outcome State Fault Refusal := finish s (handleLdReg x y s)

/-- 8xy1 (R123): VF is not written as a flag (D24). -/
def handleOrReg (x y : Reg) (s : State) : Handled := writeReg s x (s.reg x ||| s.reg y)

/-- 8xy1 `OR Vx, Vy` (R123). -/
def execOrReg (x y : Reg) (s : State) : Host.Outcome State Fault Refusal := finish s (handleOrReg x y s)

/-- 8xy2 (R124): VF is not written as a flag (D24). -/
def handleAndReg (x y : Reg) (s : State) : Handled := writeReg s x (s.reg x &&& s.reg y)

/-- 8xy2 `AND Vx, Vy` (R124). -/
def execAndReg (x y : Reg) (s : State) : Host.Outcome State Fault Refusal := finish s (handleAndReg x y s)

/-- 8xy3 (R125): VF is not written as a flag (D24). -/
def handleXorReg (x y : Reg) (s : State) : Handled := writeReg s x (s.reg x ^^^ s.reg y)

/-- 8xy3 `XOR Vx, Vy` (R125). -/
def execXorReg (x y : Reg) (s : State) : Host.Outcome State Fault Refusal := finish s (handleXorReg x y s)

/-- 8xy4 (R127): carry to VF, then the sum to V`x`. -/
def handleAddReg (x y : Reg) (s : State) : Handled :=
  .done (s.flagThenResult (carryFlag (s.reg x) (s.reg y)) x fun t => t.reg x + t.reg y) .one

/-- 8xy4 `ADD Vx, Vy` (R127). -/
def execAddReg (x y : Reg) (s : State) : Host.Outcome State Fault Refusal := finish s (handleAddReg x y s)

/-- 8xy5 (R128): strict greater to VF, then the difference to V`x`. -/
def handleSub (x y : Reg) (s : State) : Handled :=
  .done (s.flagThenResult (greaterFlag (s.reg x) (s.reg y)) x fun t => t.reg x - t.reg y) .one

/-- 8xy5 `SUB Vx, Vy` (R128). -/
def execSub (x y : Reg) (s : State) : Host.Outcome State Fault Refusal := finish s (handleSub x y s)

/-- 8xy6 (R129): the low bit to VF, then V`x` shifted right; `y` is ignored. -/
def handleShr (x _ : Reg) (s : State) : Handled :=
  .done (s.flagThenResult (lowBitFlag (s.reg x)) x fun t => t.reg x >>> 1) .one

/-- 8xy6 `SHR Vx` (R129). -/
def execShr (x y : Reg) (s : State) : Host.Outcome State Fault Refusal := finish s (handleShr x y s)

/-- 8xy7 (R130): strict greater to VF, then the reverse difference to V`y`. -/
def handleSubn (x y : Reg) (s : State) : Handled :=
  .done (s.flagThenResult (greaterFlag (s.reg y) (s.reg x)) y fun t => t.reg y - t.reg x) .one

/-- 8xy7 `SUBN Vx, Vy` (R130). -/
def execSubn (x y : Reg) (s : State) : Host.Outcome State Fault Refusal := finish s (handleSubn x y s)

/-- 8xyE (R131): bit 7 in place to VF, then V`x` shifted left; `y` is ignored. -/
def handleShl (x _ : Reg) (s : State) : Handled :=
  .done (s.flagThenResult (highBitFlag (s.reg x)) x fun t => t.reg x <<< 1) .one

/-- 8xyE `SHL Vx` (R131). -/
def execShl (x y : Reg) (s : State) : Host.Outcome State Fault Refusal := finish s (handleShl x y s)

/-- Cxkk with the byte drawn (R132). -/
def handleRndWith (r : Byte) (x : Reg) (kk : Byte) (s : State) : Handled :=
  writeReg s.afterDraw x (shiftByRandom (s.reg x) r kk)

/-- Cxkk (R132): one byte is drawn; V`x` is shifted left by its masked value. -/
def handleRnd (x : Reg) (kk : Byte) (s : State) : Handled := handleRndWith s.nextRandom x kk s

/-- Cxkk `RND Vx, kk` (R132). -/
def execRnd (x : Reg) (kk : Byte) (s : State) : Host.Outcome State Fault Refusal :=
  finish s (handleRnd x kk s)

end Sys2Proof.Machine
end

