-- ==== Sys2Proof/Machine/Skip.lean ====
section
/-! DEFINITION. The skips that compare registers and immediates: 3xkk, 4xkk, 5xy0, 9xy0 (41_skip.md). -/

namespace Sys2Proof.Machine

/-- 3xkk (R111). -/
def handleSeImm (x : Reg) (kk : Byte) (s : State) : Handled := .done s (skipCode (s.reg x == kk))

/-- 3xkk `SE Vx, kk` (R111). -/
def execSeImm (x : Reg) (kk : Byte) (s : State) : Host.Outcome State Fault Refusal :=
  finish s (handleSeImm x kk s)

/-- 4xkk (R112). -/
def handleSneImm (x : Reg) (kk : Byte) (s : State) : Handled := .done s (skipCode (s.reg x != kk))

/-- 4xkk `SNE Vx, kk` (R112). -/
def execSneImm (x : Reg) (kk : Byte) (s : State) : Host.Outcome State Fault Refusal :=
  finish s (handleSneImm x kk s)

/-- 5xy0 (R113). -/
def handleSeReg (x y : Reg) (s : State) : Handled := .done s (skipCode (s.reg x == s.reg y))

/-- 5xy0 `SE Vx, Vy` (R113). -/
def execSeReg (x y : Reg) (s : State) : Host.Outcome State Fault Refusal := finish s (handleSeReg x y s)

/-- 9xy0 (R114). -/
def handleSneReg (x y : Reg) (s : State) : Handled := .done s (skipCode (s.reg x != s.reg y))

/-- 9xy0 `SNE Vx, Vy` (R114). -/
def execSneReg (x y : Reg) (s : State) : Host.Outcome State Fault Refusal := finish s (handleSneReg x y s)

end Sys2Proof.Machine
end

