-- ==== Sys2Proof/Machine/Cycle.lean ====
section
/-! DEFINITION. The parts of one step (40_step_and_control.md R90): fetch, the fetch stall, and the
decoding and execution of a fetched word. -/

namespace Sys2Proof.Machine

/-- The fetch stage of a step: the word at `pc` (R91). -/
def State.fetch (s : State) : Option Word := fetchWord s.mem s.pc.toNat

/-- A fetch that fails aborts the step with no state change at all, `IR` included (R91, D16, log 14). -/
def stalled (s : State) : Host.Outcome State Fault Refusal := .next s

/-- A fetched word runs the instruction it decodes to; an invalid word takes the `InvalidOpcode` diagnostic
(R92, R93). The word is in `IR` already. -/
def executeWord (w : Word) (s : State) : Host.Outcome State Fault Refusal :=
  match decode w with
  | .ok i => exec i s
  | .error _ => .next (s.takeDiag .invalidOpcode)

end Sys2Proof.Machine
end

