-- ==== Sys2Proof/Machine/Step.lean ====
section
/-! DEFINITION. One `Step` event (40_step_and_control.md R90) and the host's way to place an instruction
where the next step fetches it. -/

namespace Sys2Proof.Machine

/-- `Step()` (R90): fetch, latch the word in `IR`, decode, execute, move `pc`. -/
def step (s : State) : Host.Outcome State Fault Refusal :=
  match s.fetch with
  | none => stalled s
  | some w => executeWord w (s.latch w)

/-- `s` with the instruction word stored, big-endian, where `step` fetches next. `pc` is moved to the entry
point only if nothing can be fetched where it stands (log 18). -/
def State.withFetchWord (s : State) (nbits w : Nat) : State := s.placeWord (tableWord nbits w)

end Sys2Proof.Machine
end

