-- ==== Sys2Proof/Machine/Report.lean ====
section
/-! DEFINITION. What a step reports to the outside (40_step_and_control.md R90, 60_exceptions.md R171,
R180), and the step of a machine with any parameters (00_scope.md R4). The report is an output of the step,
never part of the state (10_state.md R11). -/

namespace Sys2Proof.Machine

/-- The handler of an instruction under parameters `p`, given the byte `r` that a random draw of it yields: the
input `RandomByte` of 00_scope.md R4, which only Cxkk consumes. -/
def handleWith (p : Config.Params) (r : Byte) (i : Instr) (s : State) : Handled :=
  match i with
  | .cls => handleCls s
  | .ret => handleRet s
  | .sys nnn => handleSys nnn s
  | .jp nnn => handleJp nnn s
  | .call nnn => handleCall p nnn s
  | .seImm x kk => handleSeImm x kk s
  | .sneImm x kk => handleSneImm x kk s
  | .seReg x y => handleSeReg x y s
  | .ldImm x kk => handleLdImm x kk s
  | .addImm x kk => handleAddImm x kk s
  | .ldReg x y => handleLdReg x y s
  | .orReg x y => handleOrReg x y s
  | .andReg x y => handleAndReg x y s
  | .xorReg x y => handleXorReg x y s
  | .addReg x y => handleAddReg x y s
  | .sub x y => handleSub x y s
  | .shr x y => handleShr x y s
  | .subn x y => handleSubn x y s
  | .shl x y => handleShl x y s
  | .sneReg x y => handleSneReg x y s
  | .ldI nnn => handleLdI nnn s
  | .jpV0 nnn => handleJpV0 nnn s
  | .rnd x kk => handleRndWith r x kk s
  | .drw x y n => handleDrw p x y n s
  | .skp x => handleSkp x s
  | .sknp x => handleSknp x s
  | .ldVxDT x => handleLdVxDT x s
  | .ldVxK x => handleLdVxK x s
  | .ldDTVx x => handleLdDTVx x s
  | .ldSTVx x => handleLdSTVx x s
  | .addI x => handleAddI x s
  | .ldF x => handleLdF p x s
  | .ldB x => handleLdB p x s
  | .storeRegs x => handleStoreRegs p x s
  | .loadRegs x => handleLoadRegs p x s

/-- The handler of an instruction with the next byte of the sequence; at `hardware` it is what `exec` runs to its
end (`exec_eq_finish_handle` in the laws). -/
def handle (p : Config.Params) (i : Instr) (s : State) : Handled := handleWith p s.nextRandom i s

/-- The diagnostic a handler raised, if any. -/
def Handled.diag : Handled → Option Diag
  | .done _ _ => none
  | .raised d => some d

/-- The diagnostic an instruction raises in a state (R171). -/
def raisedBy (i : Instr) (s : State) : Option Diag := (handle hardware i s).diag

/-- The outcome a `Step` event reports (R90, D1). -/
inductive StepReport where
  /-- The fetch failed; nothing changed (R91). -/
  | stalled
  /-- A word was fetched and executed, with at most one diagnostic. -/
  | executed (diag : Option Diag)
deriving DecidableEq, Repr

/-- What a fetched word does to the state it was latched in, before `pc` moves (R92, R93), given the byte a
random draw yields. -/
def handleWord (p : Config.Params) (r : Byte) (w : Word) (s : State) : Handled :=
  match decode w with
  | .ok i => handleWith p r i s
  | .error _ => .raised .invalidOpcode

/-- The state after `Step()` of a machine with parameters `p`, given the byte a random draw yields (R90, R91). -/
def nextOf (p : Config.Params) (r : Byte) (s : State) : State :=
  match fetchWordOf p s.mem s.pc.toNat with
  | none => s
  | some w => (s.latch w).settle (handleWord p r w (s.latch w))

/-- What that step reports (R90). -/
def reportOf (p : Config.Params) (r : Byte) (s : State) : StepReport :=
  match fetchWordOf p s.mem s.pc.toNat with
  | none => .stalled
  | some w => .executed (handleWord p r w (s.latch w)).diag

/-- `Step()` of a machine with parameters `p`, taking the next byte of the sequence; `step` is the one at
`hardware` (`step_eq_stepOf` in the laws). -/
def stepOf (p : Config.Params) (s : State) : Host.Outcome State Fault Refusal := .next (nextOf p s.nextRandom s)

/-- What the step of a machine with parameters `p` reports (R90). -/
def stepReportOf (p : Config.Params) (s : State) : StepReport := reportOf p s.nextRandom s

/-- What the step from `s` reports (R90). -/
def stepReport (s : State) : StepReport := stepReportOf hardware s

/-! ## The step on the spec's own state -/

/-- The state of the core after `Step()`, on exactly the state of 10_state.md R10, with the byte `RandomByte()`
yields as an input (R11, 42_load_alu.md R132, U12): an oracle draw per step, used by Cxkk alone. -/
def coreStep (p : Config.Params) (r : Byte) (c : CoreState) : CoreState := (nextOf p r ⟨c, 0⟩).toCoreState

/-- What that step reports. -/
def coreReport (p : Config.Params) (r : Byte) (c : CoreState) : StepReport := reportOf p r ⟨c, 0⟩

end Sys2Proof.Machine
end

