-- ==== Sys2Proof/Machine/Events.lean ====
section
/-! DEFINITION. The events by which the outside world drives the core (60_exceptions.md R180): `PowerOn`,
`LoadProgram`, `Step`, `TickDelay`, `TickSound`, `KeyPress`, `KeyRelease`, `Snapshot`, `DisplayUpdated`,
their outputs, and the order in which they are admitted (70_reset_and_hazards.md R201, U14). -/

namespace Sys2Proof.Machine

/-! ## Program load (20_memory.md R58) -/

/-- The memory after the load of an image that fits: program window zero-filled, image copied to its start
(0x200), font copied to its place (0x000); 0x050..0x1FF is not touched (R58). -/
def loadMemoryOf (p : Config.Params) (rom : List Byte) (m : Memory) : Memory :=
  let zeroed := m.writeBytes p.progBase (List.replicate p.progSize 0x00#8)
  (zeroed.writeBytes p.progBase rom).writeBytes p.fontBase p.font

/-- `LoadProgram(rom)` of a machine with parameters `p`: an image longer than `ROM_MAX` (1184 bytes) is fatal
and changes nothing (R58, R177, D22). -/
def loadProgramOf (p : Config.Params) (rom : List Byte) (s : State) : Host.Outcome State Fault Refusal :=
  if rom.length > p.romMax then .fault .programTooLarge else .next (s.setMem (loadMemoryOf p rom s.mem))

/-- The state after `PowerOn` of a machine with parameters `p` (10_state.md R25). -/
def resetOf (p : Config.Params) : State := State.reset.setPc p.pcReset

/-- The launch state of a run: after `PowerOn` and a load (10_state.md R26). -/
def launchStateOf (p : Config.Params) (rom : List Byte) : State :=
  (resetOf p).setMem (loadMemoryOf p rom (resetOf p).mem)

/-- This hardware with another font (U13, log 6). -/
abbrev hardwareWithFont (glyphs : List Byte) : Config.Params := { hardware with font := glyphs }

/-- The load of this hardware with another font. -/
def loadMemory (glyphs rom : List Byte) (m : Memory) : Memory := loadMemoryOf (hardwareWithFont glyphs) rom m

/-- `LoadProgram(rom)` of this hardware with the font as an argument. -/
def loadProgramWith (glyphs rom : List Byte) (s : State) : Host.Outcome State Fault Refusal :=
  loadProgramOf (hardwareWithFont glyphs) rom s

/-- `LoadProgram(rom)` (R58) with the default font (R59, log 6). -/
def loadProgram (rom : List Byte) (s : State) : Host.Outcome State Fault Refusal := loadProgramOf hardware rom s

/-- The launch state of this hardware with the font as an argument. -/
def launchState (glyphs rom : List Byte) : State := launchStateOf (hardwareWithFont glyphs) rom

/-! ## Timers (60_exceptions.md R182, R183) -/

/-- `TickDelay` (R182). -/
def tickDelay (s : State) : State := if s.DT.toNat > 0 then s.setDT (s.DT - 1#8) else s

/-- `TickSound`: the state after it (R183). -/
def tickSound (s : State) : State := if s.ST.toNat > 0 then s.setST (s.ST - 1#8) else s

/-- Whether `TickSound` emits a tone pulse: `ST` above 0 before the decrement (R183). -/
def tonePulse (s : State) : Bool := decide (s.ST.toNat > 0)

/-! ## Keys (60_exceptions.md R185) -/

/-- `KeyPress(k)`. -/
def keyPress (k : KeyNumber) (s : State) : State := { s with key := s.key.set k true }

/-- `KeyRelease(k)`. -/
def keyRelease (k : KeyNumber) (s : State) : State := { s with key := s.key.set k false }

/-! ## Queries (20_memory.md R57, 60_exceptions.md R186) -/

/-- `Snapshot`: 256 bytes, row-major, 8 bytes a row (R57). -/
def snapshot (s : State) : List Byte := s.fb.toList.flatMap fun row => row.toList

/-- `DisplayUpdated`: `IR[15:12] = 0xD` (R186). -/
def displayUpdated (s : State) : Bool := fieldT s.IR == 0xD#4

/-! ## Events and sessions -/

/-- The events of a run, after the load (R201 item 3). -/
inductive RunEvent where
  | step
  | tickDelay
  | tickSound
  | keyPress (k : KeyNumber)
  | keyRelease (k : KeyNumber)
  | snapshot
  | displayUpdated
deriving DecidableEq, Repr

/-- What an event gives to the outside (R180). -/
inductive Output where
  | silent
  | loaded
  | stepped (report : StepReport)
  | tonePulse
  | frame (bytes : List Byte)
  | answer (updated : Bool)
deriving DecidableEq, Repr

/-- The output of a run event taken in a state (R180). -/
def RunEvent.output (s : State) : RunEvent → Output
  | .step => .stepped (stepReport s)
  | .tickDelay => .silent
  | .tickSound => if Machine.tonePulse s then .tonePulse else .silent
  | .keyPress _ => .silent
  | .keyRelease _ => .silent
  | .snapshot => .frame (Machine.snapshot s)
  | .displayUpdated => .answer (Machine.displayUpdated s)

/-- A run event taken in a state (R180, R181). -/
def RunEvent.apply (s : State) : RunEvent → Host.Outcome State Fault Refusal
  | .step => Machine.step s
  | .tickDelay => .next (Machine.tickDelay s)
  | .tickSound => .next (Machine.tickSound s)
  | .keyPress k => .next (Machine.keyPress k s)
  | .keyRelease k => .next (Machine.keyRelease k s)
  | .snapshot => .next s
  | .displayUpdated => .next s

/-- A sequence of run events in the order given; every order is admitted (R181, D19). -/
def runEvents (s : State) : List RunEvent → Host.Outcome State Fault Refusal
  | [] => .next s
  | e :: es =>
    match e.apply s with
    | .next t => runEvents t es
    | .fault f => .fault f
    | .refused r => .refused r

/-- The outputs of a sequence of run events, in order. -/
def runOutputs (s : State) : List RunEvent → List Output
  | [] => []
  | e :: es =>
    e.output s ::
      match e.apply s with
      | .next t => runOutputs t es
      | .fault _ => []
      | .refused _ => []

/-- How far the boot sequence of R201 has come. -/
inductive Session where
  | unpowered
  | poweredOn (s : State)
  | running (s : State)
deriving DecidableEq, Repr

/-- Every event of the interface (R180). -/
inductive Event where
  | powerOn
  | loadProgram (rom : List Byte)
  | run (e : RunEvent)
deriving DecidableEq, Repr

/-- The session and the output after an event. -/
structure Reaction where
  session : Session
  output : Output
deriving DecidableEq, Repr

/-- A run event inside a session. -/
def runReaction (s : State) (e : RunEvent) : Host.Outcome Reaction Fault Refusal :=
  match e.apply s with
  | .next t => .next ⟨.running t, e.output s⟩
  | .fault f => .fault f
  | .refused r => .refused r

/-- The load inside a session. -/
def loadReaction (s : State) (rom : List Byte) : Host.Outcome Reaction Fault Refusal :=
  match Machine.loadProgram rom s with
  | .next t => .next ⟨.running t, .loaded⟩
  | .fault f => .fault f
  | .refused r => .refused r

/-- One event of the interface: `PowerOn` once, one successful `LoadProgram`, then run events; any other
order is refused (R201, U14, log 1). -/
def Session.react : Session → Event → Host.Outcome Reaction Fault Refusal
  | .unpowered, .powerOn => .next ⟨.poweredOn State.reset, .silent⟩
  | .unpowered, .loadProgram _ => .refused .eventOutOfOrder
  | .unpowered, .run _ => .refused .eventOutOfOrder
  | .poweredOn _, .powerOn => .refused .eventOutOfOrder
  | .poweredOn s, .loadProgram rom => loadReaction s rom
  | .poweredOn _, .run _ => .refused .eventOutOfOrder
  | .running _, .powerOn => .refused .eventOutOfOrder
  | .running _, .loadProgram _ => .refused .eventOutOfOrder
  | .running s, .run e => runReaction s e

end Sys2Proof.Machine
end

