-- ==== Sys2Proof/WellFormed.lean ====
section
/-! DEFINITION. Which instruction terms stand for a word of the hardware. Every operand width is in its
type, so one check is left: `SYS` is every family 0 word BUT 00E0 and 00EE (30_encoding.md R75, R76). -/

namespace Sys2Proof

/-- The two family 0 words that are not `SYS` (30_encoding.md R76). -/
def Instr.isSysField (nnn : Addr12) : Bool :=
  nnn != 0x0E0#12 && nnn != 0x0EE#12

/-- A term that some instruction word encodes (30_encoding.md R74 to R76). -/
def Instr.wellFormed : Instr → Bool
  | .sys nnn => Instr.isSysField nnn
  | .cls => true
  | .ret => true
  | .jp _ => true
  | .call _ => true
  | .seImm _ _ => true
  | .sneImm _ _ => true
  | .seReg _ _ => true
  | .ldImm _ _ => true
  | .addImm _ _ => true
  | .ldReg _ _ => true
  | .orReg _ _ => true
  | .andReg _ _ => true
  | .xorReg _ _ => true
  | .addReg _ _ => true
  | .sub _ _ => true
  | .shr _ _ => true
  | .subn _ _ => true
  | .shl _ _ => true
  | .sneReg _ _ => true
  | .ldI _ => true
  | .jpV0 _ => true
  | .rnd _ _ => true
  | .drw _ _ _ => true
  | .skp _ => true
  | .sknp _ => true
  | .ldVxDT _ => true
  | .ldVxK _ => true
  | .ldDTVx _ => true
  | .ldSTVx _ => true
  | .addI _ => true
  | .ldF _ => true
  | .ldB _ => true
  | .storeRegs _ => true
  | .loadRegs _ => true

end Sys2Proof
end

