-- ==== Sys2Proof/Safety.lean ====
section
/-! DEFINITION. The terms claims about this machine are stated in: what an instruction leaves unchanged,
pixels, the invariants of reachable states (10_state.md R27), parked states and the end of a run
(70_reset_and_hazards.md R210), and steps that raised no diagnostic (U6). -/

namespace Sys2Proof.Machine

/-! ## Frames -/

/-- The parts of the state beside the general registers and `pc`. -/
inductive Part where
  | index
  | callStack
  | delayTimer
  | soundTimer
  | lastWord
  | memory
  | display
  | keys
  | randomDraws
deriving DecidableEq, Repr

/-- A part reads the same in two states; memory byte by byte, the call stack with its pointer. -/
def Part.Same (s t : State) : Part → Prop
  | .index => t.I = s.I
  | .callStack => t.sp = s.sp ∧ ∀ j : Fin 16, t.stack[j] = s.stack[j]
  | .delayTimer => t.DT = s.DT
  | .soundTimer => t.ST = s.ST
  | .lastWord => t.IR = s.IR
  | .memory => ∀ a, t.mem.peek a = s.mem.peek a
  | .display => ∀ r b, fbByte t.fb r b = fbByte s.fb r b
  | .keys => ∀ k : KeyNumber, t.key[k] = s.key[k]
  | .randomDraws => t.draws = s.draws

/-- From `s` to `t` no general register but those of `regs` and no part but those of `parts` has changed;
`pc` is left to the statement that uses the frame. -/
structure Frame (regs : List Reg) (parts : List Part) (s t : State) : Prop where
  registers : ∀ r, r ∉ regs → t.reg r = s.reg r
  others : ∀ p, p ∉ parts → Part.Same s t p

/-- Every byte of memory outside `[a, a + n)` reads the same. -/
def MemKeptOutside (a n : Nat) (s t : State) : Prop :=
  ∀ b, b < a ∨ a + n ≤ b → t.mem.peek b = s.mem.peek b

/-! ## Fetchable addresses and invariants -/

/-- An instruction can be fetched at `a` (20_memory.md R44). -/
def Fetchable (a : Word) : Prop := 0x200 ≤ a.toNat ∧ a.toNat ≤ 0x69E

/-- The invariants of reachable states (10_state.md R27 items 1 to 3) and the canonical form of memory. -/
structure Inv (s : State) : Prop where
  memCanonical : s.mem.wf = true
  spInRange : s.sp.toNat ≤ 15
  slotZero : s.stack[0] = 0
  slots : ∀ j : Fin 16, s.stack[j] = 0 ∨ Fetchable s.stack[j]
  liveSlots : ∀ j : Fin 16, 1 ≤ j.val → j.val ≤ s.sp.toNat → Fetchable s.stack[j]
  pcBound : s.pc.toNat ≤ 0x10FE

/-! ## Pixels (10_state.md R23, 44_display.md R152, R155) -/

/-- Pixel (column `c`, row `r`): bit `7 - c mod 8` of `fb[r][c / 8]` (10_state.md R23). -/
def pixel (f : Framebuffer) (c r : Nat) : Bool := (fbByte f r (c / 8)).getLsbD (7 - c % 8)

/-- Whether a sprite drawn at (`xc`, `yc`) has a 1 bit at column `c`, row `r`: its row is the distance of `r`
from `yc` mod 32, its column the distance of `c` from `xc` mod 64, and bit 7 of a sprite byte is its leftmost
pixel (44_display.md R152 point 3, R155). -/
def spritePixel (xc yc : Byte) (bytes : List Byte) (c r : Nat) : Bool :=
  let row := (r + 32 - yc.toNat % 32) % 32
  let col := (c + 64 - xc.toNat % 64) % 64
  decide (row < bytes.length) && decide (col < 8) && (bytes.getD row 0).getLsbD (7 - col)

/-! ## Parked states and the end of a run (70_reset_and_hazards.md R210) -/

/-- A `Step` from the state yields a state equal to it in every field (R210). -/
def Parked (s : State) : Prop := step s = .next s

/-- The word at `pc` is a `SYS` word and `IR` equals it (R210). -/
def SysPark (s : State) : Prop := s.fetch = some s.IR ∧ ∃ nnn, decode s.IR = .ok (.sys nnn)

/-- The word at `pc` jumps to itself and `IR` equals it (R210, C12). -/
def SelfJump (s : State) : Prop :=
  s.fetch = some s.IR ∧
    ((∃ nnn, decode s.IR = .ok (.jp nnn) ∧ nnn.toNat = s.pc.toNat) ∨
      ∃ nnn, decode s.IR = .ok (.jpV0 nnn) ∧ (s.reg v0).toNat + nnn.toNat = s.pc.toNat)

/-- The word at `pc` is `Fx0A`, `IR` equals it and no key is down (R210). -/
def KeyWait (s : State) : Prop :=
  s.fetch = some s.IR ∧ (∃ x, decode s.IR = .ok (.ldVxK x)) ∧ ∀ k : KeyNumber, s.key[k] = false

/-- The end of a run: parked by fetch stall, `SYS` or self-jump, not by a key wait (R210, D21). -/
def RunEnded (s : State) : Prop := s.fetch = none ∨ SysPark s ∨ SelfJump s

/-! ## Runs that raise nothing (U6) -/

/-- The step from `s` raises a diagnostic; a safety claim forbids it (U6). -/
def stepRaises (s : State) : Bool :=
  match stepReport s with
  | .stalled => false
  | .executed none => false
  | .executed (some _) => true

end Sys2Proof.Machine
end

