-- ==== Sys2Proof/Certificates/Slice0/Obligations.lean ====
section
/-! DEFINITION. The statements about the model. Each docstring names the rules of spec/ it formalises. D<n>
are the spec's own decisions (92_eei_decisions.md): a statement that rests on one says so. A next state is
described by what can be read of it and by its `Frame`: every register, part of the state and byte of
memory that the frame does not name reads as before. -/

open Sys2Proof Sys2Proof.Machine

/-! ## Encoding -/

/-- 30_encoding.md R71, R74, R75: one word of every family, written out from its pattern, decodes to its
instruction, and one invalid word of each family that has some is rejected (95_test_vectors.md group D). The
clause that rejects 0x9AB1 is the spec's decision D15 (log 20, DESIGN CHOICE), not a rule of the source. -/
def Obligations.SampleWordsDecode : Prop :=
  decode 0x00E0 = .ok .cls ∧ decode 0x00EE = .ok .ret ∧ decode 0x00E1 = .ok (.sys 0x0E1) ∧
  decode 0x1204 = .ok (.jp 0x204) ∧ decode 0x2ABC = .ok (.call 0xABC) ∧ decode 0x3122 = .ok (.seImm 1 0x22) ∧
  decode 0x4123 = .ok (.sneImm 1 0x23) ∧ decode 0x710F = .ok (.addImm 1 0x0F) ∧
  decode 0x5120 = .ok (.seReg 1 2) ∧ decode 0x63AB = .ok (.ldImm 3 0xAB) ∧ decode 0x8AB4 = .ok (.addReg 10 11) ∧
  decode 0x812E = .ok (.shl 1 2) ∧ decode 0x9AB0 = .ok (.sneReg 10 11) ∧ decode 0xA123 = .ok (.ldI 0x123) ∧
  decode 0xB300 = .ok (.jpV0 0x300) ∧ decode 0xC107 = .ok (.rnd 1 0x07) ∧ decode 0xD12F = .ok (.drw 1 2 15) ∧
  decode 0xE1A1 = .ok (.sknp 1) ∧ decode 0xF20A = .ok (.ldVxK 2) ∧ decode 0xFF65 = .ok (.loadRegs 15) ∧
  decode 0x5121 = .error (.invalidOpcode 0x5121) ∧ decode 0x8008 = .error (.invalidOpcode 0x8008) ∧
  decode 0x9AB1 = .error (.invalidOpcode 0x9AB1) ∧ decode 0xE09F = .error (.invalidOpcode 0xE09F) ∧
  decode 0xF075 = .error (.invalidOpcode 0xF075)

/-- 30_encoding.md R71: the fields of every word are the stated bit ranges: as numbers, the hexadecimal digits
of the word are `T`, `X`, `Y`, `N`, and `KK` and `NNN` are its last two and last three digits. -/
def Obligations.FieldsDecomposeEveryWord : Prop :=
  ∀ w : Word,
    (fieldT w).toNat = w.toNat / 4096 ∧ (fieldX w).val = w.toNat / 256 % 16 ∧ (fieldY w).val = w.toNat / 16 % 16 ∧
    (fieldN w).toNat = w.toNat % 16 ∧ (fieldKK w).toNat = w.toNat % 256 ∧ (fieldNNN w).toNat = w.toNat % 4096 ∧
    (fieldKK w).toNat = 16 * (fieldY w).val + (fieldN w).toNat ∧
    (fieldNNN w).toNat = 256 * (fieldX w).val + (fieldKK w).toNat ∧
    w.toNat = 4096 * (fieldT w).toNat + (fieldNNN w).toNat

/-- 30_encoding.md R72, R74, R75: for every well-formed instruction, with every operand value, decoding its
word gives it back, and so does decoding its two bytes in memory order, whatever follows them. -/
def Obligations.DecodeOfEncodeIsIdentity : Prop :=
  ∀ i : Instr, i.wellFormed = true →
    decode (encode i) = .ok i ∧ ∀ rest, decodeBytes (encodeBytes i ++ rest) = .ok (i, rest)

/-- 30_encoding.md R74, R75: a word that decodes is the word of the instruction it decodes to, and that
instruction is well formed: every word has at most one meaning and no bit of it is lost. -/
def Obligations.EncodeOfDecodeIsIdentity : Prop :=
  ∀ (w : Word) (i : Instr), decode w = .ok i → i.wellFormed = true ∧ encode i = w

/-- 30_encoding.md R74, R77: decoding agrees with the opcode table read as 35 rows of mask and pattern, the
first row that selects the word winning; a word that selects no row is invalid (for 9xyN this is D15). -/
def Obligations.DecodeTakesFirstSelectedRow : Prop :=
  ∀ w : Word,
    match opcodeRows.find? fun r => r.selects w with
    | none => decode w = .error (.invalidOpcode w)
    | some r => ∃ i, decode w = .ok i ∧ i.row = r

/-! ## The step protocol -/

/-- 40_step_and_control.md R90, R92, D1, D17: when the two bytes at a fetchable `pc` decode to an instruction,
the step latches their word in `IR`, changes nothing else, and is then exactly `exec` of the instruction,
which moves `pc` itself; its report carries the diagnostic the instruction raises there. -/
def Obligations.StepRunsDecodedInstruction : Prop :=
  ∀ (s : State) (i : Instr), Fetchable s.pc →
    decodeBytes [s.mem.peek s.pc.toNat, s.mem.peek (s.pc.toNat + 1)] = .ok (i, []) →
    ∃ u : State, u.IR.toNat = 256 * (s.mem.peek s.pc.toNat).toNat + (s.mem.peek (s.pc.toNat + 1)).toNat ∧
      u.pc = s.pc ∧ Frame [] [.lastWord] s u ∧ step s = exec i u ∧ stepReport s = .executed (raisedBy i u)

/-- 40_step_and_control.md R91, D16: the fetch fails exactly when `pc` is not in 0x200..0x69E; the step then
changes no state at all, `IR` included, and reports `Stalled`. -/
def Obligations.UnfetchablePcStallsStep : Prop :=
  ∀ s : State, (s.pc.toNat < 0x200 ∨ 0x69E < s.pc.toNat ↔ stepReport s = .stalled) ∧
    (s.pc.toNat < 0x200 ∨ 0x69E < s.pc.toNat → step s = .next s)

/-- 20_memory.md R44: `FetchWord(a)` is the big-endian value of the bytes at `a` and `a + 1` for `a` in
0x200..0x69E and fails for every other address. -/
def Obligations.FetchWordIsBigEndianInProgramWindow : Prop :=
  ∀ (m : Memory) (a : Nat),
    (0x200 ≤ a ∧ a ≤ 0x69E →
      ∃ w, fetchWord m a = some w ∧ w.toNat = 256 * (m.peek a).toNat + (m.peek (a + 1)).toNat) ∧
    (a < 0x200 ∨ 0x69E < a → fetchWord m a = none)

/-- 30_encoding.md R77 and 40_step_and_control.md R93, D11, and D15 where the word is a 9xyN (log 20): a fetched
word that selects no row of the opcode table raises `InvalidOpcode`; `IR` holds the word, `pc` moves by 2,
nothing else changes. -/
def Obligations.InvalidWordIsSteppedOver : Prop :=
  ∀ (s : State) (w : Word), s.fetch = some w → (∀ r ∈ opcodeRows, w &&& r.mask ≠ r.pattern) →
    stepReport s = .executed (some .invalidOpcode) ∧
    ∃ t, step s = .next t ∧ t.IR = w ∧ t.pc = s.pc + 2 ∧ Frame [] [.lastWord] s t

/-- 60_exceptions.md R170: nothing halts the core; from every state whatever, reachable or not, the step
answers a next state, and so does every instruction. -/
def Obligations.EveryStepAnswersNextState : Prop :=
  ∀ s : State, (∃ t, step s = .next t) ∧ ∀ i : Instr, ∃ t, exec i s = .next t

/-- 60_exceptions.md R171 (conditions decided in D10, D11, D14): which instruction raises which diagnostic, and
exactly when; no other instruction can raise anything. For an unreachable `sp` of 16 or more at 00EE the kind
`stackOverflow` is the model's choice (log 16). -/
def Obligations.DiagnosticsRaisedExactly : Prop :=
  ∀ (i : Instr) (s : State) (d : Diag), raisedBy i s = some d ↔
    match i with
    | .ret => (d = .stackUnderflow ∧ s.sp.toNat = 0) ∨ (d = .stackOverflow ∧ 16 ≤ s.sp.toNat)
    | .call _ => d = .stackOverflow ∧ 15 ≤ s.sp.toNat
    | .ldB _ => d = .invalidAddress ∧ ¬(0x200 ≤ s.I.toNat ∧ s.I.toNat + 3 ≤ 0x6A0)
    | .storeRegs x => d = .invalidAddress ∧ ¬(0x200 ≤ s.I.toNat ∧ s.I.toNat + (x.val + 1) ≤ 0x6A0)
    | .loadRegs x => d = .invalidAddress ∧
        ¬(s.I.toNat + (x.val + 1) ≤ 0x200 ∨ (0x200 ≤ s.I.toNat ∧ s.I.toNat + (x.val + 1) ≤ 0x6A0))
    | .drw _ _ n => d = .invalidAddress ∧ n ≠ 0 ∧
        ¬(s.I.toNat + n.toNat ≤ 0x200 ∨ (0x200 ≤ s.I.toNat ∧ s.I.toNat + n.toNat ≤ 0x6A0))
    | _ => False

/-- 40_step_and_control.md R93, D11: an instruction that raises a diagnostic changes nothing but `pc`, which
moves on by 2: no register, no byte, no stack slot. -/
def Obligations.DiagnosticSkipsInstruction : Prop :=
  ∀ (i : Instr) (s : State) (d : Diag), raisedBy i s = some d →
    ∃ t, exec i s = .next t ∧ t.pc = s.pc + 2 ∧ Frame [] [] s t

/-! ## Memory primitives -/

/-- 20_memory.md R43, R45: a generic read of `n` bytes answers the bytes lowest address first exactly when the
span lies wholly inside one window, and fails otherwise, a span across 0x1FF/0x200 included; the end of a span
is computed without wrap (D12). -/
def Obligations.MemReadStaysInsideOneWindow : Prop :=
  ∀ (m : Memory) (a n : Nat),
    (a + n ≤ 0x200 ∨ (0x200 ≤ a ∧ a + n ≤ 0x6A0) →
      ∃ bytes, memRead m a n = some bytes ∧ bytes.length = n ∧ ∀ i, i < n → bytes[i]? = some (m.peek (a + i))) ∧
    (¬(a + n ≤ 0x200 ∨ (0x200 ≤ a ∧ a + n ≤ 0x6A0)) → memRead m a n = none)

/-- 20_memory.md R46, D11: a generic write stores the bytes lowest address first, and no other byte, exactly
when the span lies wholly inside the program window; otherwise it fails. The canonical form is kept. -/
def Obligations.MemWriteStaysInsideProgramWindow : Prop :=
  ∀ (m : Memory) (a : Nat) (bytes : List Byte),
    (0x200 ≤ a ∧ a + bytes.length ≤ 0x6A0 →
      ∃ m', memWrite m a bytes = some m' ∧ (∀ i, i < bytes.length → bytes[i]? = some (m'.peek (a + i))) ∧
        (∀ b, b < a ∨ a + bytes.length ≤ b → m'.peek b = m.peek b) ∧ (m.wf = true → m'.wf = true)) ∧
    (¬(0x200 ≤ a ∧ a + bytes.length ≤ 0x6A0) → memWrite m a bytes = none)

/-! ## Control transfer -/

/-- 40_step_and_control.md R96: `SYS` reads nothing, writes nothing, leaves `pc` where it is and raises nothing;
every family 0 word but 00E0 and 00EE is one. A step on it changes `IR` alone, the next step nothing, and no
event whatever moves `pc` afterwards. -/
def Obligations.SysLeavesStateAsItIs : Prop :=
  ∀ (nnn : Addr12) (s : State), nnn ≠ 0x0E0 → nnn ≠ 0x0EE →
    decode (wordA 0x0#4 nnn) = .ok (.sys nnn) ∧ raisedBy (.sys nnn) s = none ∧ exec (.sys nnn) s = .next s ∧
    (s.fetch = some (wordA 0x0#4 nnn) →
      ∃ u, step s = .next u ∧ u.IR = wordA 0x0#4 nnn ∧ u.pc = s.pc ∧ Frame [] [.lastWord] s u ∧ step u = .next u ∧
        ∀ (es : List RunEvent) (t : State), runEvents u es = .next t → t.pc = s.pc)

/-- 40_step_and_control.md R97: `JP nnn` sets `pc` to `NNN`, unchecked, and changes nothing else; a target outside
0x200..0x69E makes the next step stall; a jump to its own address changes nothing. -/
def Obligations.JumpSetsPcToAddress : Prop :=
  ∀ (nnn : Addr12) (s : State),
    decode (wordA 0x1#4 nnn) = .ok (.jp nnn) ∧ raisedBy (.jp nnn) s = none ∧
    (s.pc.toNat = nnn.toNat → exec (.jp nnn) s = .next s) ∧
    ∃ t, exec (.jp nnn) s = .next t ∧ t.pc.toNat = nnn.toNat ∧ Frame [] [] s t ∧
      (nnn.toNat < 0x200 ∨ 0x69E < nnn.toNat → step t = .next t ∧ stepReport t = .stalled)

/-- 40_step_and_control.md R99: `JP V0, nnn` sets `pc` to V0 + `NNN`, kept whole, always with V0; a sum outside
0x200..0x69E makes the next step stall. -/
def Obligations.JumpV0AddsV0ToAddress : Prop :=
  ∀ (nnn : Addr12) (s : State),
    decode (wordA 0xB#4 nnn) = .ok (.jpV0 nnn) ∧ raisedBy (.jpV0 nnn) s = none ∧
    ∃ t, exec (.jpV0 nnn) s = .next t ∧ t.pc.toNat = (s.reg 0).toNat + nnn.toNat ∧ Frame [] [] s t ∧
      ((s.reg 0).toNat + nnn.toNat < 0x200 ∨ 0x69E < (s.reg 0).toNat + nnn.toNat →
        step t = .next t ∧ stepReport t = .stalled)

/-- 40_step_and_control.md R98, D5: with `sp` below 15, `CALL` stores its own address in slot `sp + 1`, raises
`sp` by 1 and sets `pc` to `NNN`; every other slot keeps its value. -/
def Obligations.CallPushesItsOwnAddress : Prop :=
  ∀ (nnn : Addr12) (s : State), s.sp.toNat < 15 →
    raisedBy (.call nnn) s = none ∧
    ∃ t, exec (.call nnn) s = .next t ∧ t.sp.toNat = s.sp.toNat + 1 ∧ t.pc.toNat = nnn.toNat ∧
      (∀ j : Fin 16, t.stack[j] = if j.val = s.sp.toNat + 1 then s.pc else s.stack[j]) ∧
      Frame [] [.callStack] s t

/-- 40_step_and_control.md R95, D10: with a return address on the stack, `RET` sets `pc` to the value of slot
`sp` and lowers `sp` by 1; no slot is cleared. -/
def Obligations.RetPopsPc : Prop :=
  ∀ (s : State) (j : Fin 16), s.sp.toNat = j.val → 1 ≤ j.val →
    raisedBy .ret s = none ∧
    ∃ t, exec .ret s = .next t ∧ t.pc = s.stack[j] ∧ t.sp.toNat + 1 = s.sp.toNat ∧
      (∀ k : Fin 16, t.stack[k] = s.stack[k]) ∧ Frame [] [.callStack] s t

/-- 40_step_and_control.md R100 and 70_reset_and_hazards.md R212 item 1, D5: a `RET` right after a `CALL` that
succeeded returns to the `CALL` itself, with `sp` as it was before it. -/
def Obligations.RetResumesAtCall : Prop :=
  ∀ (nnn : Addr12) (s : State), s.sp.toNat < 15 →
    ∃ t u, exec (.call nnn) s = .next t ∧ exec .ret t = .next u ∧ u.pc = s.pc ∧ u.sp = s.sp

/-! ## Skips -/

/-- 41_skip.md R111, R112: 3xkk skips exactly when V`x` = `kk`, 4xkk exactly when not; a skip moves `pc` by 4,
no skip by 2, and nothing else changes. -/
def Obligations.ImmediateSkipsCompareVx : Prop :=
  ∀ (x : Reg) (kk : Byte) (s : State),
    decode (wordXK 0x3#4 x kk) = .ok (.seImm x kk) ∧ decode (wordXK 0x4#4 x kk) = .ok (.sneImm x kk) ∧
    raisedBy (.seImm x kk) s = none ∧ raisedBy (.sneImm x kk) s = none ∧
    (∃ t, exec (.seImm x kk) s = .next t ∧ t.pc = s.pc + (if s.reg x = kk then 4 else 2) ∧ Frame [] [] s t) ∧
    (∃ t, exec (.sneImm x kk) s = .next t ∧ t.pc = s.pc + (if s.reg x = kk then 2 else 4) ∧ Frame [] [] s t)

/-- 41_skip.md R113, R114 (that 9xyN with another low nibble is invalid is D15 and not stated here): 5xy0 skips
exactly when V`x` = V`y`, 9xy0 exactly when not; nothing but `pc` changes. -/
def Obligations.RegisterSkipsCompareVxVy : Prop :=
  ∀ (x y : Reg) (s : State),
    decode (wordXYN 0x5#4 x y 0x0#4) = .ok (.seReg x y) ∧ decode (wordXYN 0x9#4 x y 0x0#4) = .ok (.sneReg x y) ∧
    raisedBy (.seReg x y) s = none ∧ raisedBy (.sneReg x y) s = none ∧
    (∃ t, exec (.seReg x y) s = .next t ∧ t.pc = s.pc + (if s.reg x = s.reg y then 4 else 2) ∧ Frame [] [] s t) ∧
    (∃ t, exec (.sneReg x y) s = .next t ∧ t.pc = s.pc + (if s.reg x = s.reg y then 2 else 4) ∧ Frame [] [] s t)

/-! ## Loads, arithmetic, logic, shifts -/

/-- 42_load_alu.md R120, R122: 6xkk loads `kk` and 8xy0 copies V`y` into V`x`, VF being an ordinary
destination; no flag is written. -/
def Obligations.LoadsWriteVx : Prop :=
  ∀ (x y : Reg) (kk : Byte) (s : State),
    decode (wordXK 0x6#4 x kk) = .ok (.ldImm x kk) ∧ decode (wordXYN 0x8#4 x y 0x0#4) = .ok (.ldReg x y) ∧
    raisedBy (.ldImm x kk) s = none ∧ raisedBy (.ldReg x y) s = none ∧
    (∃ t, exec (.ldImm x kk) s = .next t ∧ t.reg x = kk ∧ t.pc = s.pc + 2 ∧ Frame [x] [] s t) ∧
    (∃ t, exec (.ldReg x y) s = .next t ∧ t.reg x = s.reg y ∧ t.pc = s.pc + 2 ∧ Frame [x] [] s t)

/-- 42_load_alu.md R121: 7xkk adds `kk` to V`x` mod 256 and writes no flag. -/
def Obligations.AddImmediateWrapsWithoutFlag : Prop :=
  ∀ (x : Reg) (kk : Byte) (s : State),
    decode (wordXK 0x7#4 x kk) = .ok (.addImm x kk) ∧ raisedBy (.addImm x kk) s = none ∧
    ∃ t, exec (.addImm x kk) s = .next t ∧ (t.reg x).toNat = ((s.reg x).toNat + kk.toNat) % 256 ∧
      t.pc = s.pc + 2 ∧ Frame [x] [] s t

/-- 42_load_alu.md R123 to R125: 8xy1, 8xy2, 8xy3 are OR, AND, XOR bit by bit into V`x`; that VF is not written
unless it is V`x` is the spec's decision D24. -/
def Obligations.LogicActsBitByBit : Prop :=
  ∀ (x y : Reg) (s : State),
    (∃ t, exec (.orReg x y) s = .next t ∧ t.pc = s.pc + 2 ∧ Frame [x] [] s t ∧
      ∀ k, (t.reg x).getLsbD k = ((s.reg x).getLsbD k || (s.reg y).getLsbD k)) ∧
    (∃ t, exec (.andReg x y) s = .next t ∧ t.pc = s.pc + 2 ∧ Frame [x] [] s t ∧
      ∀ k, (t.reg x).getLsbD k = ((s.reg x).getLsbD k && (s.reg y).getLsbD k)) ∧
    (∃ t, exec (.xorReg x y) s = .next t ∧ t.pc = s.pc + 2 ∧ Frame [x] [] s t ∧
      ∀ k, (t.reg x).getLsbD k = ((s.reg x).getLsbD k ^^ (s.reg y).getLsbD k))

/-- 42_load_alu.md R127: 8xy4, every alias of `x`, `y` and VF. `c` is the carry; where VF is an operand or the
destination the outcome is that of the flag-first order, the spec's decision D9 (R126). -/
def Obligations.AddWritesCarryThenSum : Prop :=
  ∀ (x y : Reg) (s : State), ∃ t, exec (.addReg x y) s = .next t ∧ t.pc = s.pc + 2 ∧ Frame [x, 15] [] s t ∧
    let a := (s.reg x).toNat
    let b := (s.reg y).toNat
    let c := if a + b > 255 then 1 else 0
    (x ≠ 15 → (t.reg 15).toNat = c) ∧
    (x ≠ 15 → y ≠ 15 → (t.reg x).toNat = (a + b) % 256) ∧
    (x = 15 → y ≠ 15 → (t.reg 15).toNat = (c + b) % 256) ∧
    (x ≠ 15 → y = 15 → (t.reg x).toNat = (a + c) % 256) ∧
    (x = 15 → y = 15 → (t.reg 15).toNat = 2 * c)

/-- 42_load_alu.md R128: 8xy5, every alias. `g` is the strict unsigned comparison; differences are mod 256.
The cases with VF as operand or destination rest on D9 (R126). -/
def Obligations.SubWritesStrictGreaterThenDifference : Prop :=
  ∀ (x y : Reg) (s : State), ∃ t, exec (.sub x y) s = .next t ∧ t.pc = s.pc + 2 ∧ Frame [x, 15] [] s t ∧
    let a := (s.reg x).toNat
    let b := (s.reg y).toNat
    let g := if a > b then 1 else 0
    (x ≠ 15 → (t.reg 15).toNat = g) ∧
    (x ≠ 15 → y ≠ 15 → (t.reg x).toNat = (a + 256 - b) % 256) ∧
    (x = 15 → y ≠ 15 → (t.reg 15).toNat = (g + 256 - b) % 256) ∧
    (x ≠ 15 → y = 15 → (t.reg x).toNat = (a + 256 - g) % 256) ∧
    (x = 15 → y = 15 → (t.reg 15).toNat = 0)

/-- 42_load_alu.md R130: 8xy7, every alias: the strict comparison V`y` > V`x` to VF, the difference to V`y`.
The cases with VF as operand or destination rest on D9. The last clause is R130's own derived remark: 8xy7 and
8yx5 have the same effect on every state. -/
def Obligations.SubnWritesVyAndEqualsSwappedSub : Prop :=
  ∀ (x y : Reg) (s : State),
    (∃ t, exec (.subn x y) s = .next t ∧ t.pc = s.pc + 2 ∧ Frame [y, 15] [] s t ∧
      let a := (s.reg x).toNat
      let b := (s.reg y).toNat
      let g := if b > a then 1 else 0
      (y ≠ 15 → (t.reg 15).toNat = g) ∧
      (x ≠ 15 → y ≠ 15 → (t.reg y).toNat = (b + 256 - a) % 256) ∧
      (x ≠ 15 → y = 15 → (t.reg 15).toNat = (g + 256 - a) % 256) ∧
      (x = 15 → y ≠ 15 → (t.reg y).toNat = (b + 256 - g) % 256) ∧
      (x = 15 → y = 15 → (t.reg 15).toNat = 0)) ∧
    exec (.subn x y) s = exec (.sub y x) s

/-- 42_load_alu.md R129, R131: 8xy6 shifts V`x` right with VF the bit shifted out, 8xyE shifts it left with VF
bit 7 in place (0x80 or 0x00); V`y` plays no part. With `x` = VF the result is 0 (flag-first order, D9). -/
def Obligations.ShiftsWriteShiftedBitThenResult : Prop :=
  ∀ (x y : Reg) (s : State),
    (∃ t, exec (.shr x y) s = .next t ∧ t.pc = s.pc + 2 ∧ Frame [x, 15] [] s t ∧
      (x ≠ 15 → (t.reg 15).toNat = (s.reg x).toNat % 2 ∧ (t.reg x).toNat = (s.reg x).toNat / 2) ∧
      (x = 15 → t.reg 15 = 0)) ∧
    (∃ t, exec (.shl x y) s = .next t ∧ t.pc = s.pc + 2 ∧ Frame [x, 15] [] s t ∧
      (x ≠ 15 → (t.reg 15).toNat = (if (s.reg x).toNat ≥ 0x80 then 0x80 else 0) ∧
        (t.reg x).toNat = 2 * (s.reg x).toNat % 256) ∧
      (x = 15 → t.reg 15 = 0))

/-- 42_load_alu.md R132, D7, D8: Cxkk draws one byte `r`, whatever it is, and shifts V`x` left by `r & kk` on
unbounded integers, mod 256, so that a shift by 8 or more gives 0; with `kk` = 0 V`x` keeps its value. -/
def Obligations.RandomShiftsVxLeft : Prop :=
  ∀ (x : Reg) (kk : Byte) (s : State), ∃ (t : State) (r : Byte),
    exec (.rnd x kk) s = .next t ∧ r = Config.randomByte s.draws ∧
    (t.reg x).toNat = (s.reg x).toNat * 2 ^ (r &&& kk).toNat % 256 ∧ (8 ≤ (r &&& kk).toNat → t.reg x = 0) ∧
    (kk = 0 → t.reg x = s.reg x) ∧ t.draws = s.draws + 1 ∧ t.pc = s.pc + 2 ∧ Frame [x] [.randomDraws] s t

/-! ## Index register and memory instructions -/

/-- 43_index_memory.md R140, R142: Annn sets `I` to `NNN`; Fx29 sets `I` to 5 times V`x`, not masked to a
digit. -/
def Obligations.IndexLoadsSetI : Prop :=
  ∀ (nnn : Addr12) (x : Reg) (s : State),
    decode (wordA 0xA#4 nnn) = .ok (.ldI nnn) ∧ decode (wordXK 0xF#4 x 0x29#8) = .ok (.ldF x) ∧
    raisedBy (.ldI nnn) s = none ∧ raisedBy (.ldF x) s = none ∧
    (∃ t, exec (.ldI nnn) s = .next t ∧ t.I.toNat = nnn.toNat ∧ t.pc = s.pc + 2 ∧ Frame [] [.index] s t) ∧
    (∃ t, exec (.ldF x) s = .next t ∧ t.I.toNat = 5 * (s.reg x).toNat ∧ t.pc = s.pc + 2 ∧ Frame [] [.index] s t)

/-- 43_index_memory.md R141, D12, D24: Fx1E adds V`x` to `I` mod 65536, not mod 4096, and writes no flag. -/
def Obligations.AddIndexWrapsAtSixteenBits : Prop :=
  ∀ (x : Reg) (s : State), ∃ t, exec (.addI x) s = .next t ∧
    t.I.toNat = (s.I.toNat + (s.reg x).toNat) % 65536 ∧ t.pc = s.pc + 2 ∧ Frame [] [.index] s t

/-- 43_index_memory.md R143, D11: with `[I, I + 3)` inside the program window, Fx33 stores the hundreds, tens
and units of V`x` at `I`, `I + 1`, `I + 2` and no other byte. -/
def Obligations.BcdStoresThreeDigitsAtI : Prop :=
  ∀ (x : Reg) (s : State), 0x200 ≤ s.I.toNat → s.I.toNat ≤ 0x69D →
    ∃ t, exec (.ldB x) s = .next t ∧ t.pc = s.pc + 2 ∧ Frame [] [.memory] s t ∧
      (t.mem.peek s.I.toNat).toNat = (s.reg x).toNat / 100 ∧
      (t.mem.peek (s.I.toNat + 1)).toNat = (s.reg x).toNat / 10 % 10 ∧
      (t.mem.peek (s.I.toNat + 2)).toNat = (s.reg x).toNat % 10 ∧ MemKeptOutside s.I.toNat 3 s t

/-- 43_index_memory.md R144, D11, D24: with `[I, I + x + 1)` inside the program window, Fx55 stores V`r` at
`I + r` for `r` from 0 to `x` and no other byte; `I` is unchanged. -/
def Obligations.StoreRegistersWritesV0ToVxAtI : Prop :=
  ∀ (x : Reg) (s : State), 0x200 ≤ s.I.toNat → s.I.toNat + (x.val + 1) ≤ 0x6A0 →
    ∃ t, exec (.storeRegs x) s = .next t ∧ t.pc = s.pc + 2 ∧ Frame [] [.memory] s t ∧
      (∀ r : Reg, r.val ≤ x.val → t.mem.peek (s.I.toNat + r.val) = s.reg r) ∧
      MemKeptOutside s.I.toNat (x.val + 1) s t

/-- 43_index_memory.md R145, D11, D24: with `[I, I + x + 1)` inside one window, Fx65 loads V`r` from `I + r`
for `r` from 0 to `x` and no other register; `I` and memory are unchanged. -/
def Obligations.LoadRegistersReadsV0ToVxFromI : Prop :=
  ∀ (x : Reg) (s : State),
    s.I.toNat + (x.val + 1) ≤ 0x200 ∨ (0x200 ≤ s.I.toNat ∧ s.I.toNat + (x.val + 1) ≤ 0x6A0) →
    ∃ t, exec (.loadRegs x) s = .next t ∧ t.pc = s.pc + 2 ∧
      (∀ r : Reg, t.reg r = if r.val ≤ x.val then s.mem.peek (s.I.toNat + r.val) else s.reg r) ∧
      ∀ p, Part.Same s t p

/-! ## Display -/

/-- 44_display.md R151, 20_memory.md R56: 00E0 sets every framebuffer byte to 0 and changes nothing else; after
its step `IR` holds 0x00E0, so the display-update query answers false. -/
def Obligations.ClearZeroesFramebuffer : Prop :=
  ∀ s : State, decode 0x00E0 = .ok .cls ∧ raisedBy .cls s = none ∧
    (∃ t, exec .cls s = .next t ∧ (∀ r b, fbByte t.fb r b = 0) ∧ t.pc = s.pc + 2 ∧ Frame [] [.display] s t) ∧
    (s.fetch = some 0x00E0 → ∃ u, step s = .next u ∧ u.IR = 0x00E0 ∧ displayUpdated u = false)

/-- 44_display.md R152, R153, R155 and 10_state.md R23 (the pixel reading is the spec's own derivation): with
the sprite's `n` bytes inside one window, Dxyn flips exactly the pixels where the sprite, wrapped on the 64 by
32 torus, has a 1 bit, and VF is 1 exactly when one of them was lit. -/
def Obligations.DrawXorsSpritePixels : Prop :=
  ∀ (x y : Reg) (n : Nibble) (s : State), n ≠ 0 →
    s.I.toNat + n.toNat ≤ 0x200 ∨ (0x200 ≤ s.I.toNat ∧ s.I.toNat + n.toNat ≤ 0x6A0) →
    ∃ (t : State) (sprite : List Byte), exec (.drw x y n) s = .next t ∧
      sprite.length = n.toNat ∧ (∀ i, i < n.toNat → sprite[i]? = some (s.mem.peek (s.I.toNat + i))) ∧
      (∀ c r, c < 64 → r < 32 →
        pixel t.fb c r = (pixel s.fb c r ^^ spritePixel (s.reg x) (s.reg y) sprite c r)) ∧
      (t.reg 15 = 0 ∨ t.reg 15 = 1) ∧
      (t.reg 15 = 1 ↔ ∃ c r, c < 64 ∧ r < 32 ∧ pixel s.fb c r = true ∧
        spritePixel (s.reg x) (s.reg y) sprite c r = true) ∧
      t.pc = s.pc + 2 ∧ Frame [15] [.display] s t

/-- 44_display.md R154, D14: Dxy0 makes no memory access, draws nothing and sets VF to 0, whatever `I` is. -/
def Obligations.DrawZeroRowsClearsVF : Prop :=
  ∀ (x y : Reg) (s : State), raisedBy (.drw x y 0) s = none ∧
    ∃ t, exec (.drw x y 0) s = .next t ∧ t.reg 15 = 0 ∧ t.pc = s.pc + 2 ∧ Frame [15] [] s t

/-- 44_display.md R156 item 1, R152: drawing the same bytes at the same coordinates twice restores every
framebuffer byte. -/
def Obligations.BlitTwiceRestoresFramebuffer : Prop :=
  ∀ (xc yc : Byte) (bytes : List Byte) (f : Framebuffer) (r b : Nat),
    fbByte (blit xc yc bytes (blit xc yc bytes f).1).1 r b = fbByte f r b

/-- 44_display.md R156 item 2, C8: the second of two equal draws reports a collision exactly when some 1 bit of
the sprite landed on a pixel that was dark before the first. -/
def Obligations.SecondBlitCollidesOnDarkPixels : Prop :=
  ∀ (xc yc : Byte) (bytes : List Byte) (f : Framebuffer), bytes.length ≤ 15 →
    ((blit xc yc bytes (blit xc yc bytes f).1).2 = true ↔
      ∃ c r, c < 64 ∧ r < 32 ∧ spritePixel xc yc bytes c r = true ∧ pixel f c r = false)

/-! ## Keys and timers -/

/-- 45_keyboard_timer.md R160, R161, D6: Ex9E and ExA1 both skip exactly when V`x` is the number of a pressed
key; a number above 15 names no key and does not skip (D13). -/
def Obligations.KeySkipsBothTestPressed : Prop :=
  ∀ (x : Reg) (s : State), ∃ t, exec (.skp x) s = .next t ∧ exec (.sknp x) s = .next t ∧ Frame [] [] s t ∧
    (∀ k : KeyNumber, (s.reg x).toNat = k.val → t.pc = s.pc + (if s.key[k] = true then 4 else 2)) ∧
    (15 < (s.reg x).toNat → t.pc = s.pc + 2)

/-- 45_keyboard_timer.md R162: Fx0A polls once. With no key down nothing changes and `pc` stays on it, so that
the next step polls again; with a key down the least pressed key goes to V`x` and `pc` moves on. -/
def Obligations.WaitKeyPollsForLeastPressedKey : Prop :=
  ∀ (x : Reg) (s : State),
    decode (wordXK 0xF#4 x 0x0A#8) = .ok (.ldVxK x) ∧ raisedBy (.ldVxK x) s = none ∧
    ((∀ k : KeyNumber, s.key[k] = false) → exec (.ldVxK x) s = .next s) ∧
    ∀ k : KeyNumber, s.key[k] = true → (∀ j : KeyNumber, j < k → s.key[j] = false) →
      ∃ t, exec (.ldVxK x) s = .next t ∧ (t.reg x).toNat = k.val ∧ t.pc = s.pc + 2 ∧ Frame [x] [] s t

/-- 45_keyboard_timer.md R163, R164: Fx07 reads `DT` into V`x` and leaves `DT` alone, Fx15 writes `DT` from V`x`. -/
def Obligations.DelayTimerMovesCopyBytes : Prop :=
  ∀ (x : Reg) (s : State),
    decode (wordXK 0xF#4 x 0x07#8) = .ok (.ldVxDT x) ∧ decode (wordXK 0xF#4 x 0x15#8) = .ok (.ldDTVx x) ∧
    raisedBy (.ldVxDT x) s = none ∧ raisedBy (.ldDTVx x) s = none ∧
    (∃ t, exec (.ldVxDT x) s = .next t ∧ t.reg x = s.DT ∧ t.pc = s.pc + 2 ∧ Frame [x] [] s t) ∧
    (∃ t, exec (.ldDTVx x) s = .next t ∧ t.DT = s.reg x ∧ t.pc = s.pc + 2 ∧ Frame [] [.delayTimer] s t)

/-- 45_keyboard_timer.md R165: Fx18 writes `ST` from V`x`; `n` further `TickSound` events give as many pulses as
`ST` allows, so V`x` pulses in all; and no instruction reads `ST`: with another value in it every instruction
does the same and leaves that value, or, for Fx18, overwrites it. -/
def Obligations.SoundTimerIsSetAndNeverRead : Prop :=
  (∀ (x : Reg) (s : State),
    decode (wordXK 0xF#4 x 0x18#8) = .ok (.ldSTVx x) ∧ raisedBy (.ldSTVx x) s = none ∧
    ∃ t, exec (.ldSTVx x) s = .next t ∧ t.ST = s.reg x ∧ t.pc = s.pc + 2 ∧ Frame [] [.soundTimer] s t ∧
      ∀ n : Nat, (runOutputs t (List.replicate n .tickSound)).count .tonePulse = min n (s.reg x).toNat) ∧
  ∀ (i : Instr) (s t : State) (v : Byte), exec i s = .next t →
    exec i (s.setST v) = .next (match i with | .ldSTVx _ => t | _ => t.setST v)

/-! ## Events -/

/-- 60_exceptions.md R182: `TickDelay` lowers `DT` by 1, never below 0, changes nothing else and outputs
nothing. -/
def Obligations.DelayTickCountsDownToZero : Prop :=
  ∀ s : State, ∃ t, RunEvent.apply s .tickDelay = .next t ∧ t.DT.toNat = s.DT.toNat - 1 ∧ t.pc = s.pc ∧
    Frame [] [.delayTimer] s t ∧ RunEvent.output s .tickDelay = .silent

/-- 60_exceptions.md R183: `TickSound` emits a pulse exactly when `ST` was above 0, then lowers `ST` by 1, never
below 0; a timer at `v` pulses at the next `v` ticks and at none after. -/
def Obligations.SoundTickPulsesOncePerUnit : Prop :=
  ∀ s : State,
    (∃ t, RunEvent.apply s .tickSound = .next t ∧ t.ST.toNat = s.ST.toNat - 1 ∧ t.pc = s.pc ∧
      Frame [] [.soundTimer] s t) ∧
    RunEvent.output s .tickSound = (if 0 < s.ST.toNat then .tonePulse else .silent) ∧
    ∀ n : Nat, ∃ t, runEvents s (List.replicate n .tickSound) = .next t ∧ t.ST.toNat = s.ST.toNat - n ∧
      runOutputs s (List.replicate n .tickSound) =
        List.replicate (min n s.ST.toNat) .tonePulse ++ List.replicate (n - s.ST.toNat) .silent

/-- 60_exceptions.md R185: `KeyPress(k)` sets flag `k`, `KeyRelease(k)` clears it; no other flag and nothing
else changes, and pressing a pressed key or releasing a released one changes nothing at all. -/
def Obligations.KeyEventsSetOneFlag : Prop :=
  ∀ (k : KeyNumber) (s : State),
    (∃ t, RunEvent.apply s (.keyPress k) = .next t ∧ t.pc = s.pc ∧ Frame [] [.keys] s t ∧
      (s.key[k] = true → t = s) ∧ ∀ j : KeyNumber, t.key[j] = if j = k then true else s.key[j]) ∧
    (∃ t, RunEvent.apply s (.keyRelease k) = .next t ∧ t.pc = s.pc ∧ Frame [] [.keys] s t ∧
      (s.key[k] = false → t = s) ∧ ∀ j : KeyNumber, t.key[j] = if j = k then false else s.key[j])

/-- 20_memory.md R57 and, for the query, 60_exceptions.md R186: the snapshot is 256 bytes with `fb[r][b]` at place
`8 r + b`, its most significant bit the leftmost pixel; the display-update query answers whether the top nibble
of `IR` is 0xD; neither changes anything. -/
def Obligations.QueriesReadFramebufferAndLastWord : Prop :=
  ∀ s : State,
    (snapshot s).length = 256 ∧
    (∀ r b, r < 32 → b < 8 → (snapshot s)[8 * r + b]? = some (fbByte s.fb r b)) ∧
    (∀ c r, c < 64 → r < 32 →
      ∃ v : Byte, (snapshot s)[8 * r + c / 8]? = some v ∧ v.getLsbD (7 - c % 8) = pixel s.fb c r) ∧
    (displayUpdated s = true ↔ s.IR.toNat / 4096 = 0xD) ∧
    RunEvent.apply s .snapshot = .next s ∧ RunEvent.output s .snapshot = .frame (snapshot s) ∧
    RunEvent.apply s .displayUpdated = .next s ∧ RunEvent.output s .displayUpdated = .answer (displayUpdated s)

/-- 20_memory.md R58, 60_exceptions.md R177, D22, for every font table of 80 bytes: an image of at most 1184
bytes is copied to 0x200 with zeros after it to 0x69F, the font to 0x000, and no other byte and no other state
changes; a longer image is the fatal `ProgramTooLarge`. -/
def Obligations.LoadPlacesImageZerosAndFont : Prop :=
  ∀ (glyphs rom : List Byte) (s : State), glyphs.length = 80 →
    (rom.length ≤ 1184 → ∃ t, loadProgramWith glyphs rom s = .next t ∧ t.pc = s.pc ∧ Frame [] [.memory] s t ∧
      (∀ i, i < 1184 → t.mem.peek (0x200 + i) = rom.getD i 0) ∧ (∀ i, i < 80 → glyphs[i]? = some (t.mem.peek i)) ∧
      ∀ a, 80 ≤ a → a < 0x200 ∨ 0x6A0 ≤ a → t.mem.peek a = s.mem.peek a) ∧
    (1184 < rom.length → loadProgramWith glyphs rom s = .fault .programTooLarge)

/-- 70_reset_and_hazards.md R201, D22 and 93_implementation_defined.md U14: a session takes `PowerOn`, then one
load, then run events; every other order is refused (log 1), and a load that is too large ends it. -/
def Obligations.SessionAdmitsBootOrderOnly : Prop :=
  (∃ r, Session.react .unpowered .powerOn = .next r ∧ r.session = .poweredOn State.reset) ∧
  (∀ (s : State) (rom : List Byte), rom.length ≤ 1184 →
    ∃ t, loadProgram rom s = .next t ∧ Session.react (.poweredOn s) (.loadProgram rom) = .next ⟨.running t, .loaded⟩) ∧
  (∀ (s : State) (rom : List Byte), 1184 < rom.length →
    Session.react (.poweredOn s) (.loadProgram rom) = .fault .programTooLarge) ∧
  (∀ (s : State) (e : RunEvent), ∃ t, e.apply s = .next t ∧
    Session.react (.running s) (.run e) = .next ⟨.running t, e.output s⟩) ∧
  (∀ (s : State) (rom : List Byte) (e : RunEvent),
    Session.react .unpowered (.loadProgram rom) = .refused .eventOutOfOrder ∧
    Session.react .unpowered (.run e) = .refused .eventOutOfOrder ∧
    Session.react (.poweredOn s) .powerOn = .refused .eventOutOfOrder ∧
    Session.react (.poweredOn s) (.run e) = .refused .eventOutOfOrder ∧
    Session.react (.running s) .powerOn = .refused .eventOutOfOrder ∧
    Session.react (.running s) (.loadProgram rom) = .refused .eventOutOfOrder)

/-! ## Reset and invariants -/

/-- 10_state.md R25, 70_reset_and_hazards.md R200: the state after `PowerOn`. `pc`, `sp` and the stack are the
source's values, every other value is the spec's decision D3 (logs 4 and 5). -/
def Obligations.ResetStateHoldsPowerOnValues : Prop :=
  State.reset.pc = 0x200 ∧ State.reset.sp = 0 ∧ (∀ j : Fin 16, State.reset.stack[j] = 0) ∧
  (∀ r : Reg, State.reset.reg r = 0) ∧ State.reset.I = 0 ∧ State.reset.DT = 0 ∧ State.reset.ST = 0 ∧
  State.reset.IR = 0 ∧ (∀ a, State.reset.mem.peek a = 0) ∧ (∀ r b, fbByte State.reset.fb r b = 0) ∧
  ∀ k : KeyNumber, State.reset.key[k] = false

/-- 10_state.md R27 (derived there): the invariants hold after `PowerOn` and in every launch state, for every
font table of 80 bytes and every image that fits (R26). -/
def Obligations.InvariantHoldsAtResetAndLaunch : Prop :=
  Inv State.reset ∧
  ∀ glyphs rom : List Byte, glyphs.length = 80 → rom.length ≤ 1184 → Inv (launchState glyphs rom)

/-- 10_state.md R27 (derived there): from every state that has the invariants (the stack pointer in 0..15, slot 0
zero, every slot zero or a fetchable address, every slot up to `sp` fetchable, `pc` at most 0x10FE, memory in
canonical form) a step leads to a state that has them. That slots hold fetchable addresses rests on D5. -/
def Obligations.StepKeepsInvariant : Prop :=
  ∀ s t : State, Inv s → step s = .next t → Inv t

/-- 10_state.md R27, 60_exceptions.md R181, D19: the invariants hold after every sequence of run events, in every
interleaving of steps, ticks, key events and queries. -/
def Obligations.EveryRunKeepsInvariant : Prop :=
  ∀ (es : List RunEvent) (s t : State), Inv s → runEvents s es = .next t → Inv t

/-- 20_memory.md R46 ("No instruction can therefore change the font"), R41, C1: no step changes a byte of the
interpreter window, and none changes what an address of no window reads as. -/
def Obligations.StepKeepsInterpreterWindow : Prop :=
  ∀ s t : State, step s = .next t → ∀ a, a < 0x200 ∨ 0x6A0 ≤ a → t.mem.peek a = s.mem.peek a

/-- 60_exceptions.md R180, R172 and the instruction rules: which steps can change what. No step changes a key;
`DT` changes only by Fx15, `ST` by Fx18, `I` by Annn, Fx1E, Fx29, the call stack by 2nnn and 00EE, memory by
Fx33 and Fx55, the framebuffer by 00E0 and Dxyn, the draw counter by Cxkk. -/
def Obligations.OnlyNamedInstructionsChangeEachPart : Prop :=
  ∀ (s t : State) (i : Instr), exec i s = .next t →
    t.key = s.key ∧ t.IR = s.IR ∧
    (t.DT ≠ s.DT → ∃ x, i = .ldDTVx x) ∧ (t.ST ≠ s.ST → ∃ x, i = .ldSTVx x) ∧
    (t.I ≠ s.I → (∃ n, i = .ldI n) ∨ (∃ x, i = .addI x) ∨ ∃ x, i = .ldF x) ∧
    (t.sp ≠ s.sp → i = .ret ∨ ∃ n, i = .call n) ∧ (t.stack ≠ s.stack → ∃ n, i = .call n) ∧
    (t.mem ≠ s.mem → (∃ x, i = .ldB x) ∨ ∃ x, i = .storeRegs x) ∧
    (t.fb ≠ s.fb → i = .cls ∨ ∃ x y n, i = .drw x y n) ∧ (t.draws ≠ s.draws → ∃ x k, i = .rnd x k)

/-- 10_state.md R12, R13: which instruction can change which general register; VF is written as a side effect by
8xy4 to 8xy7, 8xyE and Dxyn alone, and every other write is to a register the instruction names. -/
def Obligations.GeneralRegistersChangeOnlyWhereNamed : Prop :=
  ∀ (i : Instr) (s t : State) (r : Reg), exec i s = .next t → t.reg r ≠ s.reg r →
    match i with
    | .ldImm x _ | .addImm x _ | .rnd x _ => r = x
    | .ldReg x _ | .orReg x _ | .andReg x _ | .xorReg x _ => r = x
    | .addReg x _ | .sub x _ | .shr x _ | .shl x _ => r = 15 ∨ r = x
    | .subn _ y => r = 15 ∨ r = y
    | .drw _ _ _ => r = 15
    | .ldVxDT x | .ldVxK x => r = x
    | .loadRegs x => r.val ≤ x.val
    | _ => False

/-- 10_state.md R21, 40_step_and_control.md R90, D17: after a step whose fetch succeeds `IR` holds the fetched
word, whatever the instruction did; after one whose fetch fails it is as before, like everything else. -/
def Obligations.StepLatchesFetchedWord : Prop :=
  ∀ s t : State, step s = .next t →
    (∀ w, s.fetch = some w → t.IR = w) ∧ (s.fetch = none → t = s)

/-- 70_reset_and_hazards.md R210 (derived there): a step yields an equal state exactly in a fetch stall, a `SYS`
park, a self-jump or a key wait. No premise: it holds of unreachable states too. -/
def Obligations.ParkedStatesAreExactlyFourKinds : Prop :=
  ∀ s : State, Parked s ↔ (s.fetch = none ∨ SysPark s ∨ SelfJump s ∨ KeyWait s)

/-- 40_step_and_control.md R91, 70_reset_and_hazards.md R210, D21: a run that has ended stays ended, with the same
`pc`, `IR`, registers and memory, whatever steps, ticks, key events and queries follow. -/
def Obligations.EndedRunStaysEnded : Prop :=
  ∀ (es : List RunEvent) (s t : State), RunEnded s → runEvents s es = .next t →
    RunEnded t ∧ t.pc = s.pc ∧ Frame [] [.delayTimer, .soundTimer, .keys] s t
end

