-- ==== Sys2Proof/Laws/Params.lean ====
section
/-! SUPPORT. The parameters of 00_scope.md R4 as numbers: one lemma per name, so that no later proof unfolds
`Machine.hardware` or a shape constant. A width in a type (`2 ^ Config.splen` before `omega`) is cleared by
`dsimp only [Config.splen]`; the bounds of the fields of State are lemmas of Laws/State.lean. -/

namespace Sys2Proof.Laws

open Sys2Proof.Machine

/-! ## Shape of the state -/

@[simp] theorem nreg_eq : Config.nreg = 16 := rfl

@[simp] theorem vlen_eq : Config.vlen = 8 := rfl

@[simp] theorem ilen_eq : Config.ilen = 16 := rfl

@[simp] theorem pclen_eq : Config.pclen = 16 := rfl

@[simp] theorem splen_eq : Config.splen = 8 := rfl

@[simp] theorem tlen_eq : Config.tlen = 8 := rfl

@[simp] theorem stackSlots_eq : Config.stackSlots = 16 := rfl

@[simp] theorem fbRows_eq : Config.fbRows = 32 := rfl

@[simp] theorem fbRowBytes_eq : Config.fbRowBytes = 8 := rfl

@[simp] theorem nkeys_eq : Config.nkeys = 16 := rfl

@[simp] theorem instrWidth_eq : Config.instrWidth = 2 := rfl

/-! ## This hardware -/

@[simp] theorem hardware_interpBase : hardware.interpBase = 0x000 := rfl

@[simp] theorem hardware_interpSize : hardware.interpSize = 0x200 := rfl

@[simp] theorem hardware_progBase : hardware.progBase = 0x200 := rfl

@[simp] theorem hardware_progSize : hardware.progSize = 0x4A0 := rfl

@[simp] theorem hardware_romMax : hardware.romMax = 1184 := rfl

@[simp] theorem hardware_pcReset : hardware.pcReset = 0x200#16 := rfl

@[simp] theorem hardware_callLinkOffset : hardware.callLinkOffset = 0#16 := rfl

@[simp] theorem hardware_fontBase : hardware.fontBase = 0 := rfl

@[simp] theorem hardware_glyphBytes : hardware.glyphBytes = 5 := rfl

@[simp] theorem hardware_nglyph : hardware.nglyph = 16 := rfl

@[simp] theorem hardware_font : hardware.font = font := rfl

/-- The parameters of this hardware fit each other. -/
theorem hardware_coherent : hardware.coherent = true := by decide

/-- The two identities of R4: the last address of the program window, and its size in decimal. -/
theorem hardware_identities : hardware.progBase + hardware.progSize - 1 = 0x69F ∧ hardware.progSize = hardware.romMax := by
  decide

/-- The first address outside both windows, as a number (D2). -/
theorem memEnd_eq : memEnd = 0x6A0 := rfl

end Sys2Proof.Laws
end

