-- ==== Sys2Proof/Laws/Memory.lean ====
section
/-! SUPPORT. The laws of byte memory: a read after a write, that every operation keeps the canonical form,
and one lemma per access primitive that says all it can answer (20_memory.md R42 to R46). -/

namespace Sys2Proof.Laws

open Sys2Proof.Machine

/-! ## One byte -/

theorem peek_erase (m : Memory) (a b : Nat) :
    (m.erase a).peek b = if b = a then unlistedByte else m.peek b := by
  induction m with
  | nil => simp [Memory.erase, Memory.peek]
  | cons c m ih =>
    obtain ⟨k, v⟩ := c
    by_cases hk : k = a
    · subst hk
      have : Memory.erase ((k, v) :: m) k = Memory.erase m k := by simp [Memory.erase]
      rw [this, ih]
      by_cases hb : b = k <;> simp [Memory.peek, hb]
    · have : Memory.erase ((k, v) :: m) a = (k, v) :: Memory.erase m a := by simp [Memory.erase, hk]
      rw [this]
      by_cases hb : b = k
      · subst hb; simp [Memory.peek, hk]
      · simp [Memory.peek, hb, ih]

theorem peek_insert (m : Memory) (a b : Nat) (v : Byte) (h : ∀ c ∈ m, c.1 ≠ a) :
    (Memory.insert m a v).peek b = if b = a then v else m.peek b := by
  induction m with
  | nil => simp [Memory.insert, Memory.peek]
  | cons c m ih =>
    obtain ⟨k, w⟩ := c
    have hk : k ≠ a := h (k, w) (by simp)
    have hm : ∀ c ∈ m, c.1 ≠ a := fun c hc => h c (by simp [hc])
    by_cases hlt : a < k
    · simp [Memory.insert, hlt, Memory.peek]
    · simp only [Memory.insert, hlt, if_false, Memory.peek]
      by_cases hb : b = k
      · subst hb; simp [hk]
      · simp [hb, ih hm]

theorem erase_ne (m : Memory) (a : Nat) : ∀ c ∈ m.erase a, c.1 ≠ a := by
  intro c hc
  simpa using (List.mem_filter.1 hc).2

/-- A read after a write, at every address and of every memory. -/
@[simp] theorem peek_write (m : Memory) (a b : Nat) (v : Byte) :
    (m.write a v).peek b = if b = a then v else m.peek b := by
  unfold Memory.write
  split
  · next h => subst h; exact peek_erase m a b
  · rw [peek_insert _ _ _ _ (erase_ne m a), peek_erase]
    split <;> simp_all

/-- A read after a span of bytes was written. -/
theorem peek_writeBytes (bytes : List Byte) (m : Memory) (a b : Nat) :
    (m.writeBytes a bytes).peek b =
      if a ≤ b ∧ b < a + bytes.length then bytes.getD (b - a) 0 else m.peek b := by
  induction bytes generalizing m a with
  | nil => simp [Memory.writeBytes]
  | cons v bs ih =>
    rw [Memory.writeBytes, ih]
    by_cases h : b = a
    · subst h; simp
    · by_cases h2 : a + 1 ≤ b ∧ b < a + 1 + bs.length
      · have h3 : a ≤ b ∧ b < a + (v :: bs).length := by simp; omega
        have h4 : b - a = (b - (a + 1)) + 1 := by omega
        rw [if_pos h2, if_pos h3, h4]; simp
      · have h3 : ¬(a ≤ b ∧ b < a + (v :: bs).length) := by simp; omega
        rw [if_neg h2, if_neg h3]; simp [h]

theorem peek_writeBytes_outside (bytes : List Byte) (m : Memory) (a b : Nat)
    (h : b < a ∨ a + bytes.length ≤ b) : (m.writeBytes a bytes).peek b = m.peek b := by
  rw [peek_writeBytes, if_neg (by omega)]

/-! ## The canonical form -/

theorem wfFrom_mono (m : Memory) {lo lo' : Nat} (h : lo' ≤ lo) (hm : Memory.wfFrom lo m = true) :
    Memory.wfFrom lo' m = true := by
  cases m with
  | nil => rfl
  | cons c m =>
    obtain ⟨k, v⟩ := c
    simp only [Memory.wfFrom, Bool.and_eq_true, decide_eq_true_eq] at hm ⊢
    exact ⟨⟨⟨by omega, hm.1.1.2⟩, hm.1.2⟩, hm.2⟩

theorem wfFrom_erase (m : Memory) (a lo : Nat) (hm : Memory.wfFrom lo m = true) :
    Memory.wfFrom lo (m.erase a) = true := by
  induction m generalizing lo with
  | nil => rfl
  | cons c m ih =>
    obtain ⟨k, v⟩ := c
    simp only [Memory.wfFrom, Bool.and_eq_true, decide_eq_true_eq] at hm
    by_cases hk : k = a
    · have : Memory.erase ((k, v) :: m) a = Memory.erase m a := by simp [Memory.erase, hk]
      rw [this]
      exact ih lo (wfFrom_mono m (by omega) hm.2)
    · have : Memory.erase ((k, v) :: m) a = (k, v) :: Memory.erase m a := by simp [Memory.erase, hk]
      rw [this]
      simp only [Memory.wfFrom, Bool.and_eq_true, decide_eq_true_eq]
      exact ⟨hm.1, ih (k + 1) hm.2⟩

theorem wfFrom_insert (m : Memory) (a lo : Nat) (v : Byte) (hne : ∀ c ∈ m, c.1 ≠ a) (hlo : lo ≤ a)
    (ha : a < memEnd) (hv : v ≠ unlistedByte) (hm : Memory.wfFrom lo m = true) :
    Memory.wfFrom lo (Memory.insert m a v) = true := by
  induction m generalizing lo with
  | nil => simp [Memory.insert, Memory.wfFrom, hlo, ha, hv]
  | cons c m ih =>
    obtain ⟨k, w⟩ := c
    have hk : k ≠ a := hne (k, w) (by simp)
    simp only [Memory.wfFrom, Bool.and_eq_true, decide_eq_true_eq, bne_iff_ne] at hm
    by_cases hlt : a < k
    · simp only [Memory.insert, hlt, if_true, Memory.wfFrom, Bool.and_eq_true, decide_eq_true_eq,
        bne_iff_ne]
      exact ⟨⟨⟨hlo, ha⟩, hv⟩, ⟨⟨by omega, hm.1.1.2⟩, hm.1.2⟩, hm.2⟩
    · simp only [Memory.insert, hlt, if_false, Memory.wfFrom, Bool.and_eq_true, decide_eq_true_eq,
        bne_iff_ne]
      exact ⟨hm.1, ih (k + 1) (fun c hc => hne c (by simp [hc])) (by omega) hm.2⟩

/-- A write to a backed address keeps the canonical form. -/
theorem wf_write (m : Memory) (a : Nat) (v : Byte) (ha : a < memEnd) (hm : m.wf = true) :
    (m.write a v).wf = true := by
  unfold Memory.write
  split
  · exact wfFrom_erase m a 0 hm
  · next hv =>
    exact wfFrom_insert _ a 0 v (erase_ne m a) (Nat.zero_le a) ha hv (wfFrom_erase m a 0 hm)

/-- A span written inside the backed addresses keeps the canonical form. -/
theorem wf_writeBytes (bytes : List Byte) (m : Memory) (a : Nat) (ha : a + bytes.length ≤ memEnd)
    (hm : m.wf = true) : (m.writeBytes a bytes).wf = true := by
  induction bytes generalizing m a with
  | nil => exact hm
  | cons v bs ih =>
    simp only [List.length_cons] at ha
    exact ih (m.write a v) (a + 1) (by omega) (wf_write m a v (by omega) hm)

/-- Reset memory is canonical. -/
theorem wf_reset : State.reset.mem.wf = true := rfl

/-! ## The access primitives, for every machine -/

/-- All that `memWriteOf` can answer with a memory. -/
theorem memWriteOf_eq_some {p : Config.Params} {m m' : Memory} {a : Nat} {bytes : List Byte} :
    memWriteOf p m a bytes = some m' ↔ InProgOf p a bytes.length ∧ m.writeBytes a bytes = m' := by
  unfold memWriteOf
  split
  · next h => exact ⟨fun e => ⟨h, Option.some.inj e⟩, fun e => congrArg some e.2⟩
  · next h => exact ⟨fun e => absurd e (by simp), fun e => absurd e.1 h⟩

theorem memWriteOf_eq_none {p : Config.Params} {m : Memory} {a : Nat} {bytes : List Byte} :
    memWriteOf p m a bytes = none ↔ ¬InProgOf p a bytes.length := by
  unfold memWriteOf
  split
  · next h => exact ⟨fun e => absurd e (by simp), fun e => absurd h e⟩
  · next h => exact ⟨fun _ => h, fun _ => rfl⟩

/-- A store reaches no address below the program window. -/
theorem memWriteOf_peek_below {p : Config.Params} {m m' : Memory} {a b : Nat} {bytes : List Byte}
    (h : memWriteOf p m a bytes = some m') (hb : b < p.progBase) : m'.peek b = m.peek b := by
  obtain ⟨hin, rfl⟩ := memWriteOf_eq_some.1 h
  exact peek_writeBytes_outside bytes m a b (.inl (lt_of_lt_of_le hb hin.1))

/-- All that `memReadOf` can answer with bytes. -/
theorem memReadOf_eq_some {p : Config.Params} {m : Memory} {a n : Nat} {bytes : List Byte} :
    memReadOf p m a n = some bytes ↔
      (InInterpOf p a n ∨ InProgOf p a n) ∧ (List.range n).map (fun i => m.peek (a + i)) = bytes := by
  unfold memReadOf
  split
  · next h => exact ⟨fun e => ⟨h, Option.some.inj e⟩, fun e => congrArg some e.2⟩
  · next h => exact ⟨fun e => absurd e (by simp), fun e => absurd e.1 h⟩

theorem memReadOf_eq_none {p : Config.Params} {m : Memory} {a n : Nat} :
    memReadOf p m a n = none ↔ ¬(InInterpOf p a n ∨ InProgOf p a n) := by
  unfold memReadOf
  split
  · next h => exact ⟨fun e => absurd e (by simp), fun e => absurd h e⟩
  · next h => exact ⟨fun _ => h, fun _ => rfl⟩

/-- All that a fetch can answer with a word. -/
theorem fetchWordOf_eq_some {p : Config.Params} {m : Memory} {a : Nat} {w : Word} :
    fetchWordOf p m a = some w ↔ InProgOf p a 2 ∧ wordOfBytes (m.peek a) (m.peek (a + 1)) = w := by
  unfold fetchWordOf
  split
  · next h => exact ⟨fun e => ⟨h, Option.some.inj e⟩, fun e => congrArg some e.2⟩
  · next h => exact ⟨fun e => absurd e (by simp), fun e => absurd e.1 h⟩

theorem fetchWordOf_eq_none {p : Config.Params} {m : Memory} {a : Nat} :
    fetchWordOf p m a = none ↔ ¬InProgOf p a 2 := by
  unfold fetchWordOf
  split
  · next h => exact ⟨fun e => absurd e (by simp), fun e => absurd h e⟩
  · next h => exact ⟨fun _ => h, fun _ => rfl⟩

/-! ## The access primitives of this hardware -/

/-- A span of the interpreter window, as numbers. -/
theorem inInterp_iff {a n : Nat} : InInterp a n ↔ a + n ≤ 0x200 := by
  show 0 ≤ a ∧ a + n ≤ 0 + 0x200 ↔ _
  omega

/-- A span of the program window, as numbers. -/
theorem inProg_iff {a n : Nat} : InProg a n ↔ 0x200 ≤ a ∧ a + n ≤ 0x6A0 := Iff.rfl

/-- The program window's fetchable addresses as numbers (20_memory.md R44). -/
theorem inProg_two {a : Nat} : InProg a 2 ↔ 0x200 ≤ a ∧ a ≤ 0x69E := by
  rw [inProg_iff]
  omega

theorem memWrite_eq_some {m m' : Memory} {a : Nat} {bytes : List Byte} :
    memWrite m a bytes = some m' ↔ InProg a bytes.length ∧ m.writeBytes a bytes = m' := memWriteOf_eq_some

theorem memWrite_eq_none {m : Memory} {a : Nat} {bytes : List Byte} :
    memWrite m a bytes = none ↔ ¬InProg a bytes.length := memWriteOf_eq_none

/-- A store keeps the canonical form. -/
theorem memWrite_wf {m m' : Memory} {a : Nat} {bytes : List Byte} (h : memWrite m a bytes = some m')
    (hm : m.wf = true) : m'.wf = true := by
  obtain ⟨hin, rfl⟩ := memWrite_eq_some.1 h
  exact wf_writeBytes bytes m a hin.2 hm

/-- A store reaches no address of the interpreter window. -/
theorem memWrite_peek_interp {m m' : Memory} {a b : Nat} {bytes : List Byte}
    (h : memWrite m a bytes = some m') (hb : b < 0x200) : m'.peek b = m.peek b :=
  memWriteOf_peek_below h hb

theorem memRead_eq_some {m : Memory} {a n : Nat} {bytes : List Byte} :
    memRead m a n = some bytes ↔
      (InInterp a n ∨ InProg a n) ∧ (List.range n).map (fun i => m.peek (a + i)) = bytes := memReadOf_eq_some

theorem memRead_eq_none {m : Memory} {a n : Nat} :
    memRead m a n = none ↔ ¬(InInterp a n ∨ InProg a n) := memReadOf_eq_none

theorem memRead_length {m : Memory} {a n : Nat} {bytes : List Byte} (h : memRead m a n = some bytes) :
    bytes.length = n := by
  obtain ⟨-, rfl⟩ := memRead_eq_some.1 h
  simp

theorem fetchWord_eq_some {m : Memory} {a : Nat} {w : Word} :
    fetchWord m a = some w ↔ InProg a 2 ∧ wordOfBytes (m.peek a) (m.peek (a + 1)) = w := fetchWordOf_eq_some

theorem fetchWord_eq_none {m : Memory} {a : Nat} : fetchWord m a = none ↔ ¬InProg a 2 := fetchWordOf_eq_none

end Sys2Proof.Laws
end

