-- ==== Sys2Proof/Laws/State.lean ====
section
/-! SUPPORT. One lemma per field per state update, each true by rfl, so that no proof unfolds a record
update; and what each update does to a register read. -/

namespace Sys2Proof.Laws

open Sys2Proof.Machine

/-! ## Bounds of the fields: the widths of Config.lean as numbers -/

theorem reg_toNat_lt (s : State) (r : Reg) : (s.reg r).toNat < 256 := (s.reg r).isLt

theorem I_toNat_lt (s : State) : s.I.toNat < 65536 := s.I.isLt

theorem pc_toNat_lt (s : State) : s.pc.toNat < 65536 := s.pc.isLt

theorem sp_toNat_lt (s : State) : s.sp.toNat < 256 := s.sp.isLt

theorem DT_toNat_lt (s : State) : s.DT.toNat < 256 := s.DT.isLt

theorem ST_toNat_lt (s : State) : s.ST.toNat < 256 := s.ST.isLt

theorem sp_succ_toNat (s : State) (h : s.sp.toNat < 255) : (s.sp + 1#8).toNat = s.sp.toNat + 1 := by
  rw [BitVec.toNat_add]
  exact Nat.mod_eq_of_lt (Nat.succ_lt_succ h)

theorem sp_pred_toNat (s : State) (h : 0 < s.sp.toNat) : (s.sp - 1#8).toNat = s.sp.toNat - 1 := by
  dsimp only [Config.splen] at *
  bv_omega

theorem DT_pred_toNat (s : State) (h : 0 < s.DT.toNat) : (s.DT - 1#8).toNat = s.DT.toNat - 1 := by
  dsimp only [Config.tlen] at *
  bv_omega

theorem ST_pred_toNat (s : State) (h : 0 < s.ST.toNat) : (s.ST - 1#8).toNat = s.ST.toNat - 1 := by
  dsimp only [Config.tlen] at *
  bv_omega

theorem reg_number_lt (r : Reg) : r.val < 16 := r.isLt

theorem key_number_lt (k : KeyNumber) : k.val < 16 := k.isLt

/-! ## State.setReg -/

@[simp] theorem setReg_x (s : State) (r : Reg) (v : Byte) : (s.setReg r v).x = s.x.set r v := rfl

@[simp] theorem setReg_I (s : State) (r : Reg) (v : Byte) : (s.setReg r v).I = s.I := rfl

@[simp] theorem setReg_pc (s : State) (r : Reg) (v : Byte) : (s.setReg r v).pc = s.pc := rfl

@[simp] theorem setReg_sp (s : State) (r : Reg) (v : Byte) : (s.setReg r v).sp = s.sp := rfl

@[simp] theorem setReg_DT (s : State) (r : Reg) (v : Byte) : (s.setReg r v).DT = s.DT := rfl

@[simp] theorem setReg_ST (s : State) (r : Reg) (v : Byte) : (s.setReg r v).ST = s.ST := rfl

@[simp] theorem setReg_IR (s : State) (r : Reg) (v : Byte) : (s.setReg r v).IR = s.IR := rfl

@[simp] theorem setReg_mem (s : State) (r : Reg) (v : Byte) : (s.setReg r v).mem = s.mem := rfl

@[simp] theorem setReg_stack (s : State) (r : Reg) (v : Byte) : (s.setReg r v).stack = s.stack := rfl

@[simp] theorem setReg_fb (s : State) (r : Reg) (v : Byte) : (s.setReg r v).fb = s.fb := rfl

@[simp] theorem setReg_key (s : State) (r : Reg) (v : Byte) : (s.setReg r v).key = s.key := rfl

@[simp] theorem setReg_draws (s : State) (r : Reg) (v : Byte) : (s.setReg r v).draws = s.draws := rfl

/-! ## State.setI -/

@[simp] theorem setI_x (s : State) (v : Word) : (s.setI v).x = s.x := rfl

@[simp] theorem setI_I (s : State) (v : Word) : (s.setI v).I = v := rfl

@[simp] theorem setI_pc (s : State) (v : Word) : (s.setI v).pc = s.pc := rfl

@[simp] theorem setI_sp (s : State) (v : Word) : (s.setI v).sp = s.sp := rfl

@[simp] theorem setI_DT (s : State) (v : Word) : (s.setI v).DT = s.DT := rfl

@[simp] theorem setI_ST (s : State) (v : Word) : (s.setI v).ST = s.ST := rfl

@[simp] theorem setI_IR (s : State) (v : Word) : (s.setI v).IR = s.IR := rfl

@[simp] theorem setI_mem (s : State) (v : Word) : (s.setI v).mem = s.mem := rfl

@[simp] theorem setI_stack (s : State) (v : Word) : (s.setI v).stack = s.stack := rfl

@[simp] theorem setI_fb (s : State) (v : Word) : (s.setI v).fb = s.fb := rfl

@[simp] theorem setI_key (s : State) (v : Word) : (s.setI v).key = s.key := rfl

@[simp] theorem setI_draws (s : State) (v : Word) : (s.setI v).draws = s.draws := rfl

@[simp] theorem setI_reg (s : State) (v : Word) (q : Reg) : (s.setI v).reg q = s.reg q := rfl

/-! ## State.setDT -/

@[simp] theorem setDT_x (s : State) (v : Byte) : (s.setDT v).x = s.x := rfl

@[simp] theorem setDT_I (s : State) (v : Byte) : (s.setDT v).I = s.I := rfl

@[simp] theorem setDT_pc (s : State) (v : Byte) : (s.setDT v).pc = s.pc := rfl

@[simp] theorem setDT_sp (s : State) (v : Byte) : (s.setDT v).sp = s.sp := rfl

@[simp] theorem setDT_DT (s : State) (v : Byte) : (s.setDT v).DT = v := rfl

@[simp] theorem setDT_ST (s : State) (v : Byte) : (s.setDT v).ST = s.ST := rfl

@[simp] theorem setDT_IR (s : State) (v : Byte) : (s.setDT v).IR = s.IR := rfl

@[simp] theorem setDT_mem (s : State) (v : Byte) : (s.setDT v).mem = s.mem := rfl

@[simp] theorem setDT_stack (s : State) (v : Byte) : (s.setDT v).stack = s.stack := rfl

@[simp] theorem setDT_fb (s : State) (v : Byte) : (s.setDT v).fb = s.fb := rfl

@[simp] theorem setDT_key (s : State) (v : Byte) : (s.setDT v).key = s.key := rfl

@[simp] theorem setDT_draws (s : State) (v : Byte) : (s.setDT v).draws = s.draws := rfl

@[simp] theorem setDT_reg (s : State) (v : Byte) (q : Reg) : (s.setDT v).reg q = s.reg q := rfl

/-! ## State.setST -/

@[simp] theorem setST_x (s : State) (v : Byte) : (s.setST v).x = s.x := rfl

@[simp] theorem setST_I (s : State) (v : Byte) : (s.setST v).I = s.I := rfl

@[simp] theorem setST_pc (s : State) (v : Byte) : (s.setST v).pc = s.pc := rfl

@[simp] theorem setST_sp (s : State) (v : Byte) : (s.setST v).sp = s.sp := rfl

@[simp] theorem setST_DT (s : State) (v : Byte) : (s.setST v).DT = s.DT := rfl

@[simp] theorem setST_ST (s : State) (v : Byte) : (s.setST v).ST = v := rfl

@[simp] theorem setST_IR (s : State) (v : Byte) : (s.setST v).IR = s.IR := rfl

@[simp] theorem setST_mem (s : State) (v : Byte) : (s.setST v).mem = s.mem := rfl

@[simp] theorem setST_stack (s : State) (v : Byte) : (s.setST v).stack = s.stack := rfl

@[simp] theorem setST_fb (s : State) (v : Byte) : (s.setST v).fb = s.fb := rfl

@[simp] theorem setST_key (s : State) (v : Byte) : (s.setST v).key = s.key := rfl

@[simp] theorem setST_draws (s : State) (v : Byte) : (s.setST v).draws = s.draws := rfl

@[simp] theorem setST_reg (s : State) (v : Byte) (q : Reg) : (s.setST v).reg q = s.reg q := rfl

/-! ## State.setPc -/

@[simp] theorem setPc_x (s : State) (v : Word) : (s.setPc v).x = s.x := rfl

@[simp] theorem setPc_I (s : State) (v : Word) : (s.setPc v).I = s.I := rfl

@[simp] theorem setPc_pc (s : State) (v : Word) : (s.setPc v).pc = v := rfl

@[simp] theorem setPc_sp (s : State) (v : Word) : (s.setPc v).sp = s.sp := rfl

@[simp] theorem setPc_DT (s : State) (v : Word) : (s.setPc v).DT = s.DT := rfl

@[simp] theorem setPc_ST (s : State) (v : Word) : (s.setPc v).ST = s.ST := rfl

@[simp] theorem setPc_IR (s : State) (v : Word) : (s.setPc v).IR = s.IR := rfl

@[simp] theorem setPc_mem (s : State) (v : Word) : (s.setPc v).mem = s.mem := rfl

@[simp] theorem setPc_stack (s : State) (v : Word) : (s.setPc v).stack = s.stack := rfl

@[simp] theorem setPc_fb (s : State) (v : Word) : (s.setPc v).fb = s.fb := rfl

@[simp] theorem setPc_key (s : State) (v : Word) : (s.setPc v).key = s.key := rfl

@[simp] theorem setPc_draws (s : State) (v : Word) : (s.setPc v).draws = s.draws := rfl

@[simp] theorem setPc_reg (s : State) (v : Word) (q : Reg) : (s.setPc v).reg q = s.reg q := rfl

/-! ## State.latch -/

@[simp] theorem latch_x (s : State) (w : Word) : (s.latch w).x = s.x := rfl

@[simp] theorem latch_I (s : State) (w : Word) : (s.latch w).I = s.I := rfl

@[simp] theorem latch_pc (s : State) (w : Word) : (s.latch w).pc = s.pc := rfl

@[simp] theorem latch_sp (s : State) (w : Word) : (s.latch w).sp = s.sp := rfl

@[simp] theorem latch_DT (s : State) (w : Word) : (s.latch w).DT = s.DT := rfl

@[simp] theorem latch_ST (s : State) (w : Word) : (s.latch w).ST = s.ST := rfl

@[simp] theorem latch_IR (s : State) (w : Word) : (s.latch w).IR = w := rfl

@[simp] theorem latch_mem (s : State) (w : Word) : (s.latch w).mem = s.mem := rfl

@[simp] theorem latch_stack (s : State) (w : Word) : (s.latch w).stack = s.stack := rfl

@[simp] theorem latch_fb (s : State) (w : Word) : (s.latch w).fb = s.fb := rfl

@[simp] theorem latch_key (s : State) (w : Word) : (s.latch w).key = s.key := rfl

@[simp] theorem latch_draws (s : State) (w : Word) : (s.latch w).draws = s.draws := rfl

@[simp] theorem latch_reg (s : State) (w : Word) (q : Reg) : (s.latch w).reg q = s.reg q := rfl

/-! ## State.setMem -/

@[simp] theorem setMem_x (s : State) (m : Memory) : (s.setMem m).x = s.x := rfl

@[simp] theorem setMem_I (s : State) (m : Memory) : (s.setMem m).I = s.I := rfl

@[simp] theorem setMem_pc (s : State) (m : Memory) : (s.setMem m).pc = s.pc := rfl

@[simp] theorem setMem_sp (s : State) (m : Memory) : (s.setMem m).sp = s.sp := rfl

@[simp] theorem setMem_DT (s : State) (m : Memory) : (s.setMem m).DT = s.DT := rfl

@[simp] theorem setMem_ST (s : State) (m : Memory) : (s.setMem m).ST = s.ST := rfl

@[simp] theorem setMem_IR (s : State) (m : Memory) : (s.setMem m).IR = s.IR := rfl

@[simp] theorem setMem_mem (s : State) (m : Memory) : (s.setMem m).mem = m := rfl

@[simp] theorem setMem_stack (s : State) (m : Memory) : (s.setMem m).stack = s.stack := rfl

@[simp] theorem setMem_fb (s : State) (m : Memory) : (s.setMem m).fb = s.fb := rfl

@[simp] theorem setMem_key (s : State) (m : Memory) : (s.setMem m).key = s.key := rfl

@[simp] theorem setMem_draws (s : State) (m : Memory) : (s.setMem m).draws = s.draws := rfl

@[simp] theorem setMem_reg (s : State) (m : Memory) (q : Reg) : (s.setMem m).reg q = s.reg q := rfl

/-! ## State.setFb -/

@[simp] theorem setFb_x (s : State) (f : Framebuffer) : (s.setFb f).x = s.x := rfl

@[simp] theorem setFb_I (s : State) (f : Framebuffer) : (s.setFb f).I = s.I := rfl

@[simp] theorem setFb_pc (s : State) (f : Framebuffer) : (s.setFb f).pc = s.pc := rfl

@[simp] theorem setFb_sp (s : State) (f : Framebuffer) : (s.setFb f).sp = s.sp := rfl

@[simp] theorem setFb_DT (s : State) (f : Framebuffer) : (s.setFb f).DT = s.DT := rfl

@[simp] theorem setFb_ST (s : State) (f : Framebuffer) : (s.setFb f).ST = s.ST := rfl

@[simp] theorem setFb_IR (s : State) (f : Framebuffer) : (s.setFb f).IR = s.IR := rfl

@[simp] theorem setFb_mem (s : State) (f : Framebuffer) : (s.setFb f).mem = s.mem := rfl

@[simp] theorem setFb_stack (s : State) (f : Framebuffer) : (s.setFb f).stack = s.stack := rfl

@[simp] theorem setFb_fb (s : State) (f : Framebuffer) : (s.setFb f).fb = f := rfl

@[simp] theorem setFb_key (s : State) (f : Framebuffer) : (s.setFb f).key = s.key := rfl

@[simp] theorem setFb_draws (s : State) (f : Framebuffer) : (s.setFb f).draws = s.draws := rfl

@[simp] theorem setFb_reg (s : State) (f : Framebuffer) (q : Reg) : (s.setFb f).reg q = s.reg q := rfl

/-! ## State.setSp -/

@[simp] theorem setSp_x (s : State) (v : Byte) : (s.setSp v).x = s.x := rfl

@[simp] theorem setSp_I (s : State) (v : Byte) : (s.setSp v).I = s.I := rfl

@[simp] theorem setSp_pc (s : State) (v : Byte) : (s.setSp v).pc = s.pc := rfl

@[simp] theorem setSp_sp (s : State) (v : Byte) : (s.setSp v).sp = v := rfl

@[simp] theorem setSp_DT (s : State) (v : Byte) : (s.setSp v).DT = s.DT := rfl

@[simp] theorem setSp_ST (s : State) (v : Byte) : (s.setSp v).ST = s.ST := rfl

@[simp] theorem setSp_IR (s : State) (v : Byte) : (s.setSp v).IR = s.IR := rfl

@[simp] theorem setSp_mem (s : State) (v : Byte) : (s.setSp v).mem = s.mem := rfl

@[simp] theorem setSp_stack (s : State) (v : Byte) : (s.setSp v).stack = s.stack := rfl

@[simp] theorem setSp_fb (s : State) (v : Byte) : (s.setSp v).fb = s.fb := rfl

@[simp] theorem setSp_key (s : State) (v : Byte) : (s.setSp v).key = s.key := rfl

@[simp] theorem setSp_draws (s : State) (v : Byte) : (s.setSp v).draws = s.draws := rfl

@[simp] theorem setSp_reg (s : State) (v : Byte) (q : Reg) : (s.setSp v).reg q = s.reg q := rfl

/-! ## State.afterDraw -/

@[simp] theorem afterDraw_x (s : State) : (s.afterDraw).x = s.x := rfl

@[simp] theorem afterDraw_I (s : State) : (s.afterDraw).I = s.I := rfl

@[simp] theorem afterDraw_pc (s : State) : (s.afterDraw).pc = s.pc := rfl

@[simp] theorem afterDraw_sp (s : State) : (s.afterDraw).sp = s.sp := rfl

@[simp] theorem afterDraw_DT (s : State) : (s.afterDraw).DT = s.DT := rfl

@[simp] theorem afterDraw_ST (s : State) : (s.afterDraw).ST = s.ST := rfl

@[simp] theorem afterDraw_IR (s : State) : (s.afterDraw).IR = s.IR := rfl

@[simp] theorem afterDraw_mem (s : State) : (s.afterDraw).mem = s.mem := rfl

@[simp] theorem afterDraw_stack (s : State) : (s.afterDraw).stack = s.stack := rfl

@[simp] theorem afterDraw_fb (s : State) : (s.afterDraw).fb = s.fb := rfl

@[simp] theorem afterDraw_key (s : State) : (s.afterDraw).key = s.key := rfl

@[simp] theorem afterDraw_draws (s : State) : (s.afterDraw).draws = s.draws + 1 := rfl

@[simp] theorem afterDraw_reg (s : State) (q : Reg) : (s.afterDraw).reg q = s.reg q := rfl

/-! ## State.advance -/

@[simp] theorem advance_x (s : State) (c : StepCode) : (s.advance c).x = s.x := rfl

@[simp] theorem advance_I (s : State) (c : StepCode) : (s.advance c).I = s.I := rfl

@[simp] theorem advance_pc (s : State) (c : StepCode) : (s.advance c).pc = s.pc + c.offset := rfl

@[simp] theorem advance_sp (s : State) (c : StepCode) : (s.advance c).sp = s.sp := rfl

@[simp] theorem advance_DT (s : State) (c : StepCode) : (s.advance c).DT = s.DT := rfl

@[simp] theorem advance_ST (s : State) (c : StepCode) : (s.advance c).ST = s.ST := rfl

@[simp] theorem advance_IR (s : State) (c : StepCode) : (s.advance c).IR = s.IR := rfl

@[simp] theorem advance_mem (s : State) (c : StepCode) : (s.advance c).mem = s.mem := rfl

@[simp] theorem advance_stack (s : State) (c : StepCode) : (s.advance c).stack = s.stack := rfl

@[simp] theorem advance_fb (s : State) (c : StepCode) : (s.advance c).fb = s.fb := rfl

@[simp] theorem advance_key (s : State) (c : StepCode) : (s.advance c).key = s.key := rfl

@[simp] theorem advance_draws (s : State) (c : StepCode) : (s.advance c).draws = s.draws := rfl

@[simp] theorem advance_reg (s : State) (c : StepCode) (q : Reg) : (s.advance c).reg q = s.reg q := rfl

/-! ## Register reads after a register write -/

@[simp] theorem setReg_reg (s : State) (r : Reg) (v : Byte) (q : Reg) :
    (s.setReg r v).reg q = if q = r then v else s.reg q := by
  simp [State.reg, State.setReg, Vector.getElem_set, Fin.ext_iff, eq_comm]

theorem setReg_reg_self (s : State) (r : Reg) (v : Byte) : (s.setReg r v).reg r = v := by simp

theorem setReg_reg_ne (s : State) {r q : Reg} (v : Byte) (h : q ≠ r) : (s.setReg r v).reg q = s.reg q := by
  simp [h]

/-! ## State.flagThenResult (42_load_alu.md R126) -/

theorem flagThenResult_reg (s : State) (flag : Byte) (dst : Reg) (result : State → Byte) (q : Reg) :
    (s.flagThenResult flag dst result).reg q =
      if q = dst then result (s.setReg vf flag) else if q = vf then flag else s.reg q := by
  simp [State.flagThenResult]

@[simp] theorem flagThenResult_I (s : State) (flag : Byte) (dst : Reg) (result : State → Byte) :
    (s.flagThenResult flag dst result).I = s.I := rfl

@[simp] theorem flagThenResult_pc (s : State) (flag : Byte) (dst : Reg) (result : State → Byte) :
    (s.flagThenResult flag dst result).pc = s.pc := rfl

@[simp] theorem flagThenResult_sp (s : State) (flag : Byte) (dst : Reg) (result : State → Byte) :
    (s.flagThenResult flag dst result).sp = s.sp := rfl

@[simp] theorem flagThenResult_DT (s : State) (flag : Byte) (dst : Reg) (result : State → Byte) :
    (s.flagThenResult flag dst result).DT = s.DT := rfl

@[simp] theorem flagThenResult_ST (s : State) (flag : Byte) (dst : Reg) (result : State → Byte) :
    (s.flagThenResult flag dst result).ST = s.ST := rfl

@[simp] theorem flagThenResult_IR (s : State) (flag : Byte) (dst : Reg) (result : State → Byte) :
    (s.flagThenResult flag dst result).IR = s.IR := rfl

@[simp] theorem flagThenResult_mem (s : State) (flag : Byte) (dst : Reg) (result : State → Byte) :
    (s.flagThenResult flag dst result).mem = s.mem := rfl

@[simp] theorem flagThenResult_stack (s : State) (flag : Byte) (dst : Reg) (result : State → Byte) :
    (s.flagThenResult flag dst result).stack = s.stack := rfl

@[simp] theorem flagThenResult_fb (s : State) (flag : Byte) (dst : Reg) (result : State → Byte) :
    (s.flagThenResult flag dst result).fb = s.fb := rfl

@[simp] theorem flagThenResult_key (s : State) (flag : Byte) (dst : Reg) (result : State → Byte) :
    (s.flagThenResult flag dst result).key = s.key := rfl

@[simp] theorem flagThenResult_draws (s : State) (flag : Byte) (dst : Reg) (result : State → Byte) :
    (s.flagThenResult flag dst result).draws = s.draws := rfl

/-! ## Key events (60_exceptions.md R185) -/

@[simp] theorem keyPress_x (k : KeyNumber) (s : State) : (keyPress k s).x = s.x := rfl

@[simp] theorem keyPress_I (k : KeyNumber) (s : State) : (keyPress k s).I = s.I := rfl

@[simp] theorem keyPress_pc (k : KeyNumber) (s : State) : (keyPress k s).pc = s.pc := rfl

@[simp] theorem keyPress_sp (k : KeyNumber) (s : State) : (keyPress k s).sp = s.sp := rfl

@[simp] theorem keyPress_DT (k : KeyNumber) (s : State) : (keyPress k s).DT = s.DT := rfl

@[simp] theorem keyPress_ST (k : KeyNumber) (s : State) : (keyPress k s).ST = s.ST := rfl

@[simp] theorem keyPress_IR (k : KeyNumber) (s : State) : (keyPress k s).IR = s.IR := rfl

@[simp] theorem keyPress_mem (k : KeyNumber) (s : State) : (keyPress k s).mem = s.mem := rfl

@[simp] theorem keyPress_stack (k : KeyNumber) (s : State) : (keyPress k s).stack = s.stack := rfl

@[simp] theorem keyPress_fb (k : KeyNumber) (s : State) : (keyPress k s).fb = s.fb := rfl

@[simp] theorem keyPress_key (k : KeyNumber) (s : State) : (keyPress k s).key = s.key.set k true := rfl

@[simp] theorem keyPress_draws (k : KeyNumber) (s : State) : (keyPress k s).draws = s.draws := rfl

@[simp] theorem keyRelease_x (k : KeyNumber) (s : State) : (keyRelease k s).x = s.x := rfl

@[simp] theorem keyRelease_I (k : KeyNumber) (s : State) : (keyRelease k s).I = s.I := rfl

@[simp] theorem keyRelease_pc (k : KeyNumber) (s : State) : (keyRelease k s).pc = s.pc := rfl

@[simp] theorem keyRelease_sp (k : KeyNumber) (s : State) : (keyRelease k s).sp = s.sp := rfl

@[simp] theorem keyRelease_DT (k : KeyNumber) (s : State) : (keyRelease k s).DT = s.DT := rfl

@[simp] theorem keyRelease_ST (k : KeyNumber) (s : State) : (keyRelease k s).ST = s.ST := rfl

@[simp] theorem keyRelease_IR (k : KeyNumber) (s : State) : (keyRelease k s).IR = s.IR := rfl

@[simp] theorem keyRelease_mem (k : KeyNumber) (s : State) : (keyRelease k s).mem = s.mem := rfl

@[simp] theorem keyRelease_stack (k : KeyNumber) (s : State) : (keyRelease k s).stack = s.stack := rfl

@[simp] theorem keyRelease_fb (k : KeyNumber) (s : State) : (keyRelease k s).fb = s.fb := rfl

@[simp] theorem keyRelease_key (k : KeyNumber) (s : State) : (keyRelease k s).key = s.key.set k false := rfl

@[simp] theorem keyRelease_draws (k : KeyNumber) (s : State) : (keyRelease k s).draws = s.draws := rfl

end Sys2Proof.Laws
end

