-- ==== Sys2Proof/Laws/Ops.lean ====
section
/-! SUPPORT. One lemma per shared operation over the call stack, the register ranges, the keys and the
framebuffer, and the inversion lemmas of the handler result. -/

namespace Sys2Proof.Laws

open Sys2Proof.Machine

/-! ## Handler results -/

theorem orRaise_eq_done {α : Type} {d : Diag} {o : Option α} {k : α → Handled} {t : State} {c : StepCode} :
    orRaise d o k = .done t c ↔ ∃ a, o = some a ∧ k a = .done t c := by
  cases o <;> simp [orRaise]

theorem orRaise_eq_raised {α : Type} {d e : Diag} {o : Option α} {k : α → Handled} :
    orRaise d o k = .raised e ↔ (o = none ∧ d = e) ∨ ∃ a, o = some a ∧ k a = .raised e := by
  cases o <;> simp [orRaise]

@[simp] theorem orRaise_some {α : Type} (d : Diag) (a : α) (k : α → Handled) : orRaise d (some a) k = k a := rfl

@[simp] theorem orRaise_none {α : Type} (d : Diag) (k : α → Handled) : orRaise d none k = .raised d := rfl

@[simp] theorem settle_done (s t : State) (c : StepCode) : s.settle (.done t c) = t.advance c := rfl

@[simp] theorem settle_raised (s : State) (d : Diag) : s.settle (.raised d) = s.advance .one := rfl

@[simp] theorem advance_zero (s : State) : s.advance .zero = s := by
  simp [State.advance, StepCode.offset, StepCode.toNat, State.setPc]

@[simp] theorem diag_done (t : State) (c : StepCode) : (Handled.done t c).diag = none := rfl

@[simp] theorem diag_raised (d : Diag) : (Handled.raised d).diag = some d := rfl

@[simp] theorem offset_one : StepCode.one.offset = 2 := rfl

@[simp] theorem offset_two : StepCode.two.offset = 4 := rfl

@[simp] theorem offset_zero : StepCode.zero.offset = 0 := rfl

/-- The step code of a skip moves `pc` by 4 or by 2 (41_skip.md R110). -/
theorem offset_skipCode (c : Bool) : (skipCode c).offset = if c then 4 else 2 := by
  cases c <;> rfl

/-! ## Call stack -/

theorem stackRead_of_lt (s : State) {j : Nat} (h : j < 16) : s.stackRead j = some s.stack[j] := by
  simp [State.stackRead, h]

theorem stackRead_of_ge (s : State) {j : Nat} (h : 16 ≤ j) : s.stackRead j = none := by
  simp [State.stackRead, Nat.not_lt.2 h]

theorem stackWrite_of_lt (s : State) {j : Nat} (v : Word) (h : j < 16) :
    s.stackWrite j v = some { s with stack := s.stack.set j v } := by
  simp [State.stackWrite, h]

theorem stackWrite_of_ge (s : State) {j : Nat} (v : Word) (h : 16 ≤ j) : s.stackWrite j v = none := by
  simp [State.stackWrite, Nat.not_lt.2 h]

/-! ## Register ranges (43_index_memory.md R144, R145) -/

@[simp] theorem regsUpTo_length (s : State) (x : Reg) : (s.regsUpTo x).length = x.val + 1 := by
  simp [State.regsUpTo]

theorem regsUpTo_getD (s : State) (x r : Reg) (h : r.val ≤ x.val) : (s.regsUpTo x).getD r.val 0 = s.reg r := by
  have hr : r.val < (s.regsUpTo x).length := by simp; omega
  rw [List.getD_eq_getElem _ _ hr]
  simp [State.regsUpTo, State.reg]

theorem setRegsFrom_reg (bytes : List Byte) (s : State) (i : Nat) (q : Reg) :
    (s.setRegsFrom i bytes).reg q =
      if i ≤ q.val ∧ q.val < i + bytes.length then bytes.getD (q.val - i) 0 else s.reg q := by
  induction bytes generalizing s i with
  | nil => simp [State.setRegsFrom]
  | cons b bs ih =>
    have hq : q.val < 16 := q.isLt
    by_cases hi : i < 16
    · simp only [State.setRegsFrom, hi, dite_true]
      rw [ih]
      by_cases hqi : q.val = i
      · have hq' : q = ⟨i, hi⟩ := Fin.ext hqi
        simp [hq']
      · have hq' : q ≠ ⟨i, hi⟩ := fun h => hqi (by simp [h])
        by_cases h2 : i + 1 ≤ q.val ∧ q.val < i + 1 + bs.length
        · have h3 : i ≤ q.val ∧ q.val < i + (b :: bs).length := by simp; omega
          have h4 : q.val - i = (q.val - (i + 1)) + 1 := by omega
          rw [if_pos h2, if_pos h3, h4]; simp
        · have h3 : ¬(i ≤ q.val ∧ q.val < i + (b :: bs).length) := by simp; omega
          rw [if_neg h2, if_neg h3]; simp [hq']
    · have h3 : ¬(i ≤ q.val ∧ q.val < i + (b :: bs).length) := by omega
      simp only [State.setRegsFrom, hi, dite_false, if_neg h3]

/-- Loading registers changes the register file alone. -/
theorem setRegsFrom_eq (bytes : List Byte) (s : State) (i : Nat) :
    s.setRegsFrom i bytes = { s with x := (s.setRegsFrom i bytes).x } := by
  induction bytes generalizing s i with
  | nil => rfl
  | cons b bs ih =>
    unfold State.setRegsFrom
    split
    · rw [ih]; rfl
    · rfl

/-! ## Keys (60_exceptions.md R185) -/

theorem isPressed_iff (s : State) (k : Byte) :
    s.isPressed k = true ↔ ∃ j : KeyNumber, j.val = k.toNat ∧ s.key[j] = true := by
  unfold State.isPressed
  split
  · next h =>
    constructor
    · intro hk; exact ⟨⟨k.toNat, h⟩, rfl, hk⟩
    · rintro ⟨j, hj, hp⟩
      have : j = ⟨k.toNat, h⟩ := Fin.ext hj
      subst this; exact hp
  · next h =>
    constructor
    · intro hk; exact absurd hk (by simp)
    · rintro ⟨j, hj, -⟩; exact absurd (hj ▸ j.isLt) h

theorem lowestKey_eq_none (s : State) : s.lowestKey = none ↔ ∀ k : KeyNumber, s.key[k] = false := by
  simp [State.lowestKey, List.find?_eq_none]

/-- The least pressed key, and only it. -/
theorem lowestKey_eq_some (s : State) (k : KeyNumber) (h : s.lowestKey = some k) :
    s.key[k] = true ∧ ∀ j : KeyNumber, j < k → s.key[j] = false := by
  unfold State.lowestKey at h
  obtain ⟨hk, l1, l2, hl, hall⟩ := List.find?_eq_some_iff_append.1 h
  refine ⟨hk, fun j hj => ?_⟩
  have hs : (List.finRange 16).Pairwise (· < ·) := List.pairwise_lt_finRange 16
  have hmem : j ∈ l1 ++ k :: l2 := hl ▸ List.mem_finRange j
  rw [hl] at hs
  have hrel := (List.pairwise_append.1 hs)
  rcases List.mem_append.1 hmem with h1 | h1
  · simpa using hall j h1
  · rcases List.mem_cons.1 h1 with rfl | h2
    · exact absurd hj (lt_irrefl _)
    · exact absurd ((List.pairwise_cons.1 hrel.2.1).1 j h2) (not_lt.2 hj.le)

/-! ## Framebuffer -/

@[simp] theorem rowByte_mod (row : FbRow) (b : Nat) : rowByte row (b % 8) = rowByte row b := by
  simp [rowByte]

@[simp] theorem fbRow_mod (f : Framebuffer) (r : Nat) : fbRow f (r % 32) = fbRow f r := by
  simp [fbRow]

theorem rowByte_setRowByte (row : FbRow) (a b : Nat) (v : Byte) :
    rowByte (setRowByte row a v) b = if b % 8 = a % 8 then v else rowByte row b := by
  simp [rowByte, setRowByte, Vector.getElem_set, eq_comm]

theorem fbRow_setFbRow (f : Framebuffer) (r q : Nat) (row : FbRow) :
    fbRow (setFbRow f r row) q = if q % 32 = r % 32 then row else fbRow f q := by
  simp [fbRow, setFbRow, Vector.getElem_set, eq_comm]

@[simp] theorem fbByte_clearFb (r b : Nat) : fbByte clearFb r b = 0 := by
  simp [fbByte, fbRow, rowByte, clearFb]

end Sys2Proof.Laws
end

