-- ==== Sys2Proof/Laws/Blit.lean ====
section
/-! SUPPORT. The blit engine by bytes and by pixels: one sprite byte on one row, then a whole sprite
(44_display.md R152, R155). -/

namespace Sys2Proof.Laws
open Sys2Proof.Machine

/-! ## One row -/

theorem leftByte_eq (xc : Byte) : leftByte xc = xc.toNat / 8 % 8 := rfl

theorem rightByte_eq (xc : Byte) : rightByte xc = (leftByte xc + 1) % 8 := rfl

theorem leftByte_lt (xc : Byte) : leftByte xc < 8 := Nat.mod_lt _ (by decide)

theorem rightByte_lt (xc : Byte) : rightByte xc < 8 := Nat.mod_lt _ (by decide)

theorem rightByte_ne_leftByte (xc : Byte) : rightByte xc ≠ leftByte xc := by
  have := leftByte_lt xc
  rw [rightByte_eq]
  omega

/-- What one sprite byte XORs into byte `k` of a row (44_display.md R152). -/
def rowMask (xc b : Byte) (k : Nat) : Byte :=
  if k % 8 = leftByte xc then leftPart xc b else if k % 8 = rightByte xc then rightPart xc b else 0#8

/-- `xorRow`, byte by byte. -/
theorem rowByte_xorRow (xc b : Byte) (row : FbRow) (k : Nat) :
    rowByte (xorRow xc b row) k = rowByte row k ^^^ rowMask xc b k := by
  have hl := Nat.mod_eq_of_lt (leftByte_lt xc)
  have hr := Nat.mod_eq_of_lt (rightByte_lt xc)
  have hne := rightByte_ne_leftByte xc
  have key : ∀ j, k % 8 = j % 8 → rowByte row j = rowByte row k := fun j hj => by
    rw [← rowByte_mod row j, ← hj, rowByte_mod]
  simp only [xorRow, rowByte_setRowByte, rowMask, hl, hr, hne, if_false]
  by_cases h1 : k % 8 = rightByte xc
  · rw [if_pos h1, if_neg (by omega), if_pos h1, key _ (by omega)]
  · by_cases h2 : k % 8 = leftByte xc
    · rw [if_neg h1, if_pos h2, if_pos h2, key _ (by omega)]
    · rw [if_neg h1, if_neg h2, if_neg h2, if_neg h1, BitVec.xor_zero]

/-- The mask of one sprite byte, pixel by pixel: column `c` of the row takes the sprite bit whose distance from
the left edge is `(c - xc) mod 64`, if that is below 8 (44_display.md R155). -/
theorem rowMask_pixel (xc b : Byte) (c : Nat) (hc : c < 64) :
    (rowMask xc b (c / 8)).getLsbD (7 - c % 8) =
      (decide ((c + 64 - xc.toNat % 64) % 64 < 8) && b.getLsbD (7 - (c + 64 - xc.toNat % 64) % 64)) := by
  have hs : bitShift xc = xc.toNat % 64 % 8 := by unfold bitShift; omega
  have hl : leftByte xc = xc.toNat % 64 / 8 := by rw [leftByte_eq]; omega
  have hm : c / 8 % 8 = c / 8 := by omega
  unfold rowMask leftPart rightPart
  rw [hs, hm]
  simp only [rightByte_eq, hl]
  have hx : xc.toNat % 64 < 64 := Nat.mod_lt _ (by decide)
  generalize xc.toNat % 64 = v at *
  by_cases h1 : c / 8 = v / 8
  · rw [if_pos h1, BitVec.getLsbD_ushiftRight]
    by_cases h2 : v % 8 ≤ c % 8
    · have h3 : (c + 64 - v) % 64 < 8 := by omega
      have h4 : v % 8 + (7 - c % 8) = 7 - (c + 64 - v) % 64 := by omega
      simp [h3, h4]
    · have h3 : ¬(c + 64 - v) % 64 < 8 := by omega
      simp only [h3, decide_false, Bool.false_and]
      exact BitVec.getLsbD_of_ge _ _ (by omega)
  · rw [if_neg h1]
    by_cases h2 : c / 8 = (v / 8 + 1) % 8
    · rw [if_pos h2, BitVec.getLsbD_shiftLeft]
      by_cases h3 : c % 8 < v % 8
      · have h4 : (c + 64 - v) % 64 < 8 := by omega
        have h5 : 7 - c % 8 - (8 - v % 8) = 7 - (c + 64 - v) % 64 := by omega
        have h6 : ¬(7 - c % 8 < 8 - v % 8) := by omega
        have h7 : 7 - c % 8 < 8 := by omega
        simp [h4, h5, h6, h7]
      · have h4 : ¬(c + 64 - v) % 64 < 8 := by omega
        have h6 : (7 - c % 8 < 8 - v % 8) := by omega
        simp [h4, h6]
    · have h4 : ¬(c + 64 - v) % 64 < 8 := by omega
      simp [h2, h4]

theorem byte_ne_zero_iff (v : Byte) : v ≠ 0#8 ↔ ∃ k, k < 8 ∧ v.getLsbD k = true := by
  constructor
  · intro h
    by_contra hn
    exact h (BitVec.eq_of_getLsbD_eq fun k hk => by
      simpa using fun hv => hn ⟨k, hk, hv⟩)
  · rintro ⟨k, -, hk⟩ rfl
    simp at hk

/-- A row collides exactly when a masked pixel of it is lit (44_display.md R152). -/
theorem rowCollides_iff (xc b : Byte) (row : FbRow) :
    rowCollides xc b row = true ↔
      ∃ c, c < 64 ∧ (rowByte row (c / 8)).getLsbD (7 - c % 8) = true ∧
        (rowMask xc b (c / 8)).getLsbD (7 - c % 8) = true := by
  have hl := leftByte_lt xc
  have hr := rightByte_lt xc
  have hne := rightByte_ne_leftByte xc
  unfold rowCollides
  simp only [Bool.or_eq_true, bne_iff_ne]
  rw [byte_ne_zero_iff, byte_ne_zero_iff]
  constructor
  · rintro (⟨k, hk, h⟩ | ⟨k, hk, h⟩)
    · have e1 : (8 * leftByte xc + (7 - k)) / 8 = leftByte xc := by omega
      have e2 : 7 - (8 * leftByte xc + (7 - k)) % 8 = k := by omega
      refine ⟨8 * leftByte xc + (7 - k), by omega, ?_⟩
      rw [e1, e2]
      simpa [rowMask, Nat.mod_eq_of_lt hl] using h
    · have e1 : (8 * rightByte xc + (7 - k)) / 8 = rightByte xc := by omega
      have e2 : 7 - (8 * rightByte xc + (7 - k)) % 8 = k := by omega
      refine ⟨8 * rightByte xc + (7 - k), by omega, ?_⟩
      rw [e1, e2]
      simpa [rowMask, Nat.mod_eq_of_lt hr, hne] using h
  · rintro ⟨c, hc, h1, h2⟩
    have hm : c / 8 % 8 = c / 8 := by omega
    unfold rowMask at h2
    rw [hm] at h2
    split at h2
    · next e => rw [e] at h1; exact .inl ⟨7 - c % 8, by omega, by simp [h1, h2]⟩
    · split at h2
      · next e => rw [e] at h1; exact .inr ⟨7 - c % 8, by omega, by simp [h1, h2]⟩
      · simp at h2

/-! ## The whole sprite -/

/-- What a sprite whose first row falls on row `r` XORs into byte `k` of row `q`. -/
def blitMask (xc : Byte) (r : Nat) : List Byte → Nat → Nat → Byte
  | [], _, _ => 0#8
  | b :: bs, q, k => (if q % 32 = r % 32 then rowMask xc b k else 0#8) ^^^ blitMask xc (r + 1) bs q k

/-- A draw XORs its mask into every byte, whatever the framebuffer holds. -/
theorem fbByte_blitFrom (bytes : List Byte) (xc : Byte) (r : Nat) (c : Bool) (f : Framebuffer) (q k : Nat) :
    fbByte (blitFrom xc r c f bytes).1 q k = fbByte f q k ^^^ blitMask xc r bytes q k := by
  induction bytes generalizing r c f with
  | nil => simp [blitFrom, blitMask]
  | cons b bs ih =>
    rw [blitFrom, ih, blitMask, ← BitVec.xor_assoc]
    congr 1
    simp only [fbByte, fbRow_setFbRow]
    by_cases h : q % 32 = r % 32
    · have : fbRow f r = fbRow f q := by rw [← fbRow_mod f r, ← h, fbRow_mod]
      rw [if_pos h, if_pos h, rowByte_xorRow, this]
    · simp [h]

theorem fbByte_blit (xc yc : Byte) (bytes : List Byte) (f : Framebuffer) (q k : Nat) :
    fbByte (blit xc yc bytes f).1 q k = fbByte f q k ^^^ blitMask xc yc.toNat bytes q k :=
  fbByte_blitFrom bytes xc yc.toNat false f q k

/-- A sprite of at most 32 rows masks row `q` with the one of its bytes that falls there. -/
theorem blitMask_eq (bytes : List Byte) (xc : Byte) (r q k : Nat) (hn : bytes.length ≤ 32) :
    blitMask xc r bytes q k =
      if (q % 32 + 32 - r % 32) % 32 < bytes.length
        then rowMask xc (bytes.getD ((q % 32 + 32 - r % 32) % 32) 0) k else 0#8 := by
  induction bytes generalizing r with
  | nil => rfl
  | cons b bs ih =>
    simp only [List.length_cons] at hn
    rw [blitMask, ih (r + 1) (by omega)]
    by_cases h : q % 32 = r % 32
    · have e1 : (q % 32 + 32 - r % 32) % 32 = 0 := by omega
      have e2 : (q % 32 + 32 - (r + 1) % 32) % 32 = 31 := by omega
      rw [if_pos h, e1, e2, if_neg (by omega)]
      simp
    · have e1 : (q % 32 + 32 - r % 32) % 32 = (q % 32 + 32 - (r + 1) % 32) % 32 + 1 := by omega
      rw [if_neg h, e1, BitVec.zero_xor]
      simp only [List.length_cons, List.getD_cons_succ]
      by_cases h2 : (q % 32 + 32 - (r + 1) % 32) % 32 < bs.length
      · rw [if_pos h2, if_pos (by omega)]
      · rw [if_neg h2, if_neg (by omega)]

/-- The collision flag of a sprite of at most 32 rows: some row of it collides with the row it falls on, read
before the draw. -/
theorem blitFrom_collides (bytes : List Byte) (xc : Byte) (r : Nat) (c : Bool) (f : Framebuffer)
    (hn : bytes.length ≤ 32) :
    (blitFrom xc r c f bytes).2 = true ↔
      c = true ∨ ∃ i, i < bytes.length ∧ rowCollides xc (bytes.getD i 0) (fbRow f (r + i)) = true := by
  induction bytes generalizing r c f with
  | nil => simp [blitFrom]
  | cons b bs ih =>
    simp only [List.length_cons] at hn
    rw [blitFrom, ih _ _ _ (by omega)]
    have keep : ∀ i, i < bs.length →
        fbRow (setFbRow f r (xorRow xc b (fbRow f r))) (r + 1 + i) = fbRow f (r + (i + 1)) := fun i hi => by
      rw [fbRow_setFbRow, if_neg (by omega)]
      congr 1
      omega
    simp only [Bool.or_eq_true, or_assoc]
    refine or_congr_right ⟨?_, ?_⟩
    · rintro (h | ⟨i, hi, h⟩)
      · exact ⟨0, by simp, by simpa using h⟩
      · exact ⟨i + 1, by simpa using hi, by rw [keep i hi] at h; simpa using h⟩
    · rintro ⟨i, hi, h⟩
      cases i with
      | zero => exact .inl (by simpa using h)
      | succ i =>
        have hi' : i < bs.length := by simpa using hi
        exact .inr ⟨i, hi', by rw [keep i hi']; simpa using h⟩

end Sys2Proof.Laws
end

