-- ==== Sys2Proof/Laws/Decode.lean ====
section
/-! SUPPORT. The fields of the three word layouts, and a word put together again from its fields
(30_encoding.md R71, R72). -/

namespace Sys2Proof.Laws

@[simp] theorem regOfBits_bitsOfReg (r : Reg) : regOfBits (bitsOfReg r) = r := rfl

@[simp] theorem bitsOfReg_regOfBits (b : Nibble) : bitsOfReg (regOfBits b) = b := rfl

/-! ## Format A -/

@[simp] theorem fieldT_wordA (t : Nibble) (nnn : Addr12) : fieldT (wordA t nnn) = t := by
  show BitVec.extractLsb' 12 4 (t ++ nnn : BitVec (4 + 12)) = t
  rw [BitVec.extractLsb'_append_eq_ite]; simp

@[simp] theorem fieldNNN_wordA (t : Nibble) (nnn : Addr12) : fieldNNN (wordA t nnn) = nnn := by
  show BitVec.extractLsb' 0 12 (t ++ nnn : BitVec (4 + 12)) = nnn
  rw [BitVec.extractLsb'_append_eq_ite]; simp

/-! ## Format XK -/

@[simp] theorem fieldT_wordXK (t : Nibble) (x : Reg) (kk : Byte) : fieldT (wordXK t x kk) = t := by
  show BitVec.extractLsb' 12 4 ((t ++ bitsOfReg x) ++ kk : BitVec ((4 + 4) + 8)) = t
  rw [BitVec.extractLsb'_append_eq_ite, BitVec.extractLsb'_append_eq_ite]; simp

@[simp] theorem fieldX_wordXK (t : Nibble) (x : Reg) (kk : Byte) : fieldX (wordXK t x kk) = x := by
  have h : fieldXBits (wordXK t x kk) = bitsOfReg x := by
    show BitVec.extractLsb' 8 4 ((t ++ bitsOfReg x) ++ kk : BitVec ((4 + 4) + 8)) = bitsOfReg x
    rw [BitVec.extractLsb'_append_eq_ite, BitVec.extractLsb'_append_eq_ite]; simp
  simp [fieldX, h]

@[simp] theorem fieldKK_wordXK (t : Nibble) (x : Reg) (kk : Byte) : fieldKK (wordXK t x kk) = kk := by
  show BitVec.extractLsb' 0 8 ((t ++ bitsOfReg x) ++ kk : BitVec ((4 + 4) + 8)) = kk
  rw [BitVec.extractLsb'_append_eq_ite]; simp

/-! ## Format XYN -/

@[simp] theorem fieldT_wordXYN (t : Nibble) (x y : Reg) (n : Nibble) : fieldT (wordXYN t x y n) = t := by
  show BitVec.extractLsb' 12 4
    (((t ++ bitsOfReg x) ++ bitsOfReg y) ++ n : BitVec (((4 + 4) + 4) + 4)) = t
  rw [BitVec.extractLsb'_append_eq_ite, BitVec.extractLsb'_append_eq_ite,
    BitVec.extractLsb'_append_eq_ite]
  simp

@[simp] theorem fieldX_wordXYN (t : Nibble) (x y : Reg) (n : Nibble) : fieldX (wordXYN t x y n) = x := by
  have h : fieldXBits (wordXYN t x y n) = bitsOfReg x := by
    show BitVec.extractLsb' 8 4
      (((t ++ bitsOfReg x) ++ bitsOfReg y) ++ n : BitVec (((4 + 4) + 4) + 4)) = bitsOfReg x
    rw [BitVec.extractLsb'_append_eq_ite, BitVec.extractLsb'_append_eq_ite,
      BitVec.extractLsb'_append_eq_ite]
    simp
  simp [fieldX, h]

@[simp] theorem fieldY_wordXYN (t : Nibble) (x y : Reg) (n : Nibble) : fieldY (wordXYN t x y n) = y := by
  have h : fieldYBits (wordXYN t x y n) = bitsOfReg y := by
    show BitVec.extractLsb' 4 4
      (((t ++ bitsOfReg x) ++ bitsOfReg y) ++ n : BitVec (((4 + 4) + 4) + 4)) = bitsOfReg y
    rw [BitVec.extractLsb'_append_eq_ite, BitVec.extractLsb'_append_eq_ite]
    simp
  simp [fieldY, h]

@[simp] theorem fieldN_wordXYN (t : Nibble) (x y : Reg) (n : Nibble) : fieldN (wordXYN t x y n) = n := by
  show BitVec.extractLsb' 0 4
    (((t ++ bitsOfReg x) ++ bitsOfReg y) ++ n : BitVec (((4 + 4) + 4) + 4)) = n
  rw [BitVec.extractLsb'_append_eq_ite]; simp

/-! ## A word from its fields -/

theorem wordA_fields (w : Word) : wordA (fieldT w) (fieldNNN w) = w := by
  apply BitVec.eq_of_toNat_eq
  show (fieldT w ++ fieldNNN w : BitVec (4 + 12)).toNat = w.toNat
  have := w.isLt
  simp only [BitVec.toNat_append, fieldT, fieldNNN, BitVec.extractLsb'_toNat, Nat.shiftRight_eq_div_pow]
  rw [Nat.shiftLeft_eq, ← Nat.shiftLeft_eq, ← Nat.shiftLeft_add_eq_or_of_lt (by omega), Nat.shiftLeft_eq]
  omega

theorem fieldNNN_split (w : Word) : fieldNNN w = (fieldXBits w ++ fieldKK w : BitVec (4 + 8)) := by
  apply BitVec.eq_of_toNat_eq
  have := w.isLt
  simp only [BitVec.toNat_append, fieldXBits, fieldKK, fieldNNN, BitVec.extractLsb'_toNat,
    Nat.shiftRight_eq_div_pow]
  rw [← Nat.shiftLeft_add_eq_or_of_lt (by omega), Nat.shiftLeft_eq]
  omega

theorem fieldKK_split (w : Word) : fieldKK w = (fieldYBits w ++ fieldN w : BitVec (4 + 4)) := by
  apply BitVec.eq_of_toNat_eq
  have := w.isLt
  simp only [BitVec.toNat_append, fieldYBits, fieldKK, fieldN, BitVec.extractLsb'_toNat,
    Nat.shiftRight_eq_div_pow]
  rw [← Nat.shiftLeft_add_eq_or_of_lt (by omega), Nat.shiftLeft_eq]
  omega

theorem wordXK_fields (w : Word) : wordXK (fieldT w) (fieldX w) (fieldKK w) = w := by
  conv_rhs => rw [← wordA_fields w, fieldNNN_split]
  apply BitVec.eq_of_toNat_eq
  show ((fieldT w ++ fieldXBits w) ++ fieldKK w : BitVec ((4 + 4) + 8)).toNat =
    (fieldT w ++ (fieldXBits w ++ fieldKK w : BitVec (4 + 8)) : BitVec (4 + (4 + 8))).toNat
  simp only [BitVec.toNat_append, Nat.shiftLeft_or_distrib, ← Nat.shiftLeft_add, Nat.or_assoc]

theorem wordXYN_fields (w : Word) : wordXYN (fieldT w) (fieldX w) (fieldY w) (fieldN w) = w := by
  conv_rhs => rw [← wordXK_fields w, fieldKK_split]
  apply BitVec.eq_of_toNat_eq
  show (((fieldT w ++ fieldXBits w) ++ fieldYBits w) ++ fieldN w : BitVec (((4 + 4) + 4) + 4)).toNat =
    ((fieldT w ++ fieldXBits w) ++ (fieldYBits w ++ fieldN w : BitVec (4 + 4)) :
      BitVec ((4 + 4) + (4 + 4))).toNat
  simp only [BitVec.toNat_append, Nat.shiftLeft_or_distrib, ← Nat.shiftLeft_add, Nat.or_assoc]

/-! ## The opcode table's masks on the layouts (R74) -/

theorem wordA_and_F000 (t : Nibble) (nnn : Addr12) : wordA t nnn &&& 0xF000#16 = wordA t 0 := by
  show (t ++ nnn : BitVec (4 + 12)) &&& ((0xF : Nibble) ++ (0 : Addr12)) = t ++ (0 : Addr12)
  rw [BitVec.and_append]
  congr 1
  · exact BitVec.and_allOnes
  · simp

theorem wordXK_and_F000 (t : Nibble) (x : Reg) (kk : Byte) : wordXK t x kk &&& 0xF000#16 = wordXK t 0 0 := by
  show ((t ++ bitsOfReg x) ++ kk : BitVec ((4 + 4) + 8)) &&&
    (((0xF : Nibble) ++ (0 : Nibble)) ++ (0 : Byte)) = (t ++ (0 : Nibble)) ++ (0 : Byte)
  rw [BitVec.and_append, BitVec.and_append]
  congr 1
  · congr 1
    · exact BitVec.and_allOnes
    · simp
  · simp

theorem wordXK_and_F0FF (t : Nibble) (x : Reg) (kk : Byte) : wordXK t x kk &&& 0xF0FF#16 = wordXK t 0 kk := by
  show ((t ++ bitsOfReg x) ++ kk : BitVec ((4 + 4) + 8)) &&&
    (((0xF : Nibble) ++ (0 : Nibble)) ++ (0xFF : Byte)) = (t ++ (0 : Nibble)) ++ kk
  rw [BitVec.and_append, BitVec.and_append]
  congr 1
  · congr 1
    · exact BitVec.and_allOnes
    · simp
  · exact BitVec.and_allOnes

theorem wordXYN_and_F00F (t : Nibble) (x y : Reg) (n : Nibble) :
    wordXYN t x y n &&& 0xF00F#16 = wordXYN t 0 0 n := by
  show (((t ++ bitsOfReg x) ++ bitsOfReg y) ++ n : BitVec (((4 + 4) + 4) + 4)) &&&
    ((((0xF : Nibble) ++ (0 : Nibble)) ++ (0 : Nibble)) ++ (0xF : Nibble)) =
      ((t ++ (0 : Nibble)) ++ (0 : Nibble)) ++ n
  rw [BitVec.and_append, BitVec.and_append, BitVec.and_append]
  congr 1
  · congr 1
    · congr 1
      · exact BitVec.and_allOnes
      · simp
    · simp
  · exact BitVec.and_allOnes

theorem wordXYN_and_F000 (t : Nibble) (x y : Reg) (n : Nibble) :
    wordXYN t x y n &&& 0xF000#16 = wordXYN t 0 0 0 := by
  show (((t ++ bitsOfReg x) ++ bitsOfReg y) ++ n : BitVec (((4 + 4) + 4) + 4)) &&&
    ((((0xF : Nibble) ++ (0 : Nibble)) ++ (0 : Nibble)) ++ (0 : Nibble)) =
      ((t ++ (0 : Nibble)) ++ (0 : Nibble)) ++ (0 : Nibble)
  rw [BitVec.and_append, BitVec.and_append, BitVec.and_append]
  congr 1
  · congr 1
    · congr 1
      · exact BitVec.and_allOnes
      · simp
    · simp
  · simp

end Sys2Proof.Laws
end

