-- ==== Sys2Proof/Laws/Exec.lean ====
section
/-! SUPPORT. What one step can do, said once: an instruction runs its handler to the end, and a step is a
fetch stall, an instruction, or an invalid word. -/

namespace Sys2Proof.Laws

open Sys2Proof.Machine

/-- Every instruction answers the next state its handler settles to; none faults, none refuses. -/
theorem exec_eq_finish_handle (i : Instr) (s : State) : exec i s = .next (s.settle (handle hardware i s)) := by
  cases i <;> rfl

theorem exec_next (i : Instr) (s : State) : ∃ t, exec i s = .next t := ⟨_, exec_eq_finish_handle i s⟩

/-- An instruction whose handler raised a diagnostic only moves `pc` on. -/
theorem exec_of_raisedBy {i : Instr} {s : State} {d : Diag} (h : raisedBy i s = some d) :
    exec i s = .next (s.advance .one) := by
  rw [exec_eq_finish_handle]
  unfold raisedBy at h
  cases hh : handle hardware i s with
  | done t c => rw [hh] at h; simp at h
  | raised e => simp

theorem raisedBy_eq_some {i : Instr} {s : State} {d : Diag} :
    raisedBy i s = some d ↔ handle hardware i s = .raised d := by
  unfold raisedBy
  cases handle hardware i s <;> simp

/-! ## The step -/

theorem fetch_eq_some {s : State} {w : Word} :
    s.fetch = some w ↔
      (0x200 ≤ s.pc.toNat ∧ s.pc.toNat ≤ 0x69E) ∧
        wordOfBytes (s.mem.peek s.pc.toNat) (s.mem.peek (s.pc.toNat + 1)) = w := by
  rw [← inProg_two]; exact fetchWord_eq_some

theorem fetch_eq_none {s : State} : s.fetch = none ↔ ¬(0x200 ≤ s.pc.toNat ∧ s.pc.toNat ≤ 0x69E) := by
  rw [← inProg_two]; exact fetchWord_eq_none

@[simp] theorem latch_fetch (s : State) (w : Word) : (s.latch w).fetch = s.fetch := rfl

theorem step_of_fetch_none {s : State} (h : s.fetch = none) : step s = .next s := by
  unfold step; rw [h]; rfl

theorem step_of_fetch_some {s : State} {w : Word} (h : s.fetch = some w) :
    step s = executeWord w (s.latch w) := by
  unfold step; rw [h]

theorem executeWord_of_ok {w : Word} {i : Instr} {s : State} (h : decode w = .ok i) :
    executeWord w s = exec i s := by
  unfold executeWord; rw [h]

theorem executeWord_of_error {w : Word} {e : Reject} {s : State} (h : decode w = .error e) :
    executeWord w s = .next (s.advance .one) := by
  unfold executeWord; rw [h]; rfl

/-- All that a step can do. -/
theorem step_cases {s t : State} (h : step s = .next t) :
    (s.fetch = none ∧ t = s) ∨
      (∃ w i, s.fetch = some w ∧ decode w = .ok i ∧
        t = (s.latch w).settle (handle hardware i (s.latch w))) ∨
      ∃ w e, s.fetch = some w ∧ decode w = .error e ∧ t = (s.latch w).advance .one := by
  cases hf : s.fetch with
  | none =>
    rw [step_of_fetch_none hf] at h
    exact .inl ⟨rfl, by injection h with h; exact h.symm⟩
  | some w =>
    rw [step_of_fetch_some hf] at h
    cases hd : decode w with
    | ok i =>
      rw [executeWord_of_ok hd, exec_eq_finish_handle] at h
      exact .inr (.inl ⟨w, i, rfl, hd, by injection h with h; exact h.symm⟩)
    | error e =>
      rw [executeWord_of_error hd] at h
      exact .inr (.inr ⟨w, e, rfl, hd, by injection h with h; exact h.symm⟩)

theorem step_next (s : State) : ∃ t, step s = .next t := by
  cases hf : s.fetch with
  | none => exact ⟨s, step_of_fetch_none hf⟩
  | some w =>
    rw [step_of_fetch_some hf]
    cases hd : decode w with
    | ok i => rw [executeWord_of_ok hd]; exact exec_next i _
    | error e => rw [executeWord_of_error hd]; exact ⟨_, rfl⟩

/-! ## The parameters (00_scope.md R4) -/

/-- The step of the host's interface is the step of the machine with this hardware's parameters. -/
theorem step_eq_stepOf (s : State) : step s = stepOf hardware s := by
  have hf : fetchWordOf hardware s.mem s.pc.toNat = s.fetch := rfl
  unfold step stepOf nextOf handleWord
  rw [hf]
  cases s.fetch with
  | none => rfl
  | some w =>
    simp only [executeWord]
    cases decode w with
    | ok i => exact exec_eq_finish_handle i _
    | error e => rfl

/-- Whatever its parameters, a machine's step answers a next state. -/
theorem stepOf_next (p : Config.Params) (s : State) : ∃ t, stepOf p s = .next t := ⟨_, rfl⟩

theorem reset_eq_resetOf : State.reset = resetOf hardware := rfl

/-- Every run event answers a next state. -/
theorem apply_next (s : State) (e : RunEvent) : ∃ t, e.apply s = .next t := by
  cases e with
  | step => exact step_next s
  | tickDelay => exact ⟨_, rfl⟩
  | tickSound => exact ⟨_, rfl⟩
  | keyPress k => exact ⟨_, rfl⟩
  | keyRelease k => exact ⟨_, rfl⟩
  | snapshot => exact ⟨_, rfl⟩
  | displayUpdated => exact ⟨_, rfl⟩

/-- An invariant that every run event keeps holds after every run. -/
theorem runEvents_induction {P : State → Prop}
    (keep : ∀ (s t : State) (e : RunEvent), P s → e.apply s = .next t → P t) :
    ∀ (es : List RunEvent) (s t : State), P s → runEvents s es = .next t → P t := by
  intro es
  induction es with
  | nil => intro s t hs h; injection h with h; exact h ▸ hs
  | cons e es ih =>
    intro s t hs h
    obtain ⟨u, hu⟩ := apply_next s e
    simp only [runEvents, hu] at h
    exact ih u t (keep s u e hs hu) h

end Sys2Proof.Laws
end

