-- ==== Sys2Proof/Laws/Handlers.lean ====
section
/-! SUPPORT. For each handler that can raise a diagnostic or poll, one lemma that says all it can be done
with; every other handler is `.done` by rfl. -/

namespace Sys2Proof.Laws

open Sys2Proof.Machine

/-- RET is done only by popping an existing slot above 0 (40_step_and_control.md R95). -/
theorem handleRet_eq_done {s t : State} {c : StepCode} :
    handleRet s = .done t c ↔
      s.sp ≠ 0#8 ∧ c = .zero ∧ ∃ h : s.sp.toNat < 16, t = (s.setPc s.stack[s.sp.toNat]).setSp (s.sp - 1#8) := by
  unfold handleRet
  split
  · next h => simp [h]
  · next h =>
    rw [orRaise_eq_done]
    by_cases hs : s.sp.toNat < 16
    · rw [stackRead_of_lt s hs]
      simp only [Option.some.injEq, Handled.done.injEq]
      constructor
      · rintro ⟨a, rfl, rfl, rfl⟩; exact ⟨h, rfl, hs, rfl⟩
      · rintro ⟨-, rfl, -, rfl⟩; exact ⟨_, rfl, rfl, rfl⟩
    · rw [stackRead_of_ge s (by omega)]
      simp [hs]

/-- CALL is done only by pushing on the slot above `sp` (40_step_and_control.md R98). -/
theorem handleCall_eq_done {nnn : Addr12} {s t : State} {c : StepCode} :
    handleCall hardware nnn s = .done t c ↔
      c = .zero ∧ ∃ h : s.sp.toNat + 1 < 16,
        t = { s with stack := s.stack.set (s.sp.toNat + 1) s.pc, sp := s.sp + 1#8, pc := addrOf nnn } := by
  have hl : s.pc + hardware.callLinkOffset = s.pc := BitVec.add_zero _
  unfold handleCall
  rw [orRaise_eq_done, hl]
  by_cases hs : s.sp.toNat + 1 < 16
  · rw [stackWrite_of_lt s _ hs]
    simp only [Option.some.injEq, Handled.done.injEq]
    constructor
    · rintro ⟨a, rfl, rfl, rfl⟩; exact ⟨rfl, hs, rfl⟩
    · rintro ⟨rfl, -, rfl⟩; exact ⟨_, rfl, rfl, rfl⟩
  · rw [stackWrite_of_ge s _ (by omega)]
    simp [hs]

/-- A store at `I` is done only as a write inside the program window (20_memory.md R46). -/
theorem storeAtI_eq_done {s t : State} {bytes : List Byte} {c : StepCode} :
    storeAtI hardware s bytes = .done t c ↔
      c = .one ∧ InProg s.I.toNat bytes.length ∧ t = s.setMem (s.mem.writeBytes s.I.toNat bytes) := by
  unfold storeAtI
  rw [orRaise_eq_done]
  simp only [memWriteOf_eq_some, Handled.done.injEq]
  constructor
  · rintro ⟨m, ⟨h, rfl⟩, rfl, rfl⟩; exact ⟨rfl, h, rfl⟩
  · rintro ⟨rfl, h, rfl⟩; exact ⟨_, ⟨h, rfl⟩, rfl, rfl⟩

/-- A register load is done only with the bytes of one window (43_index_memory.md R145). -/
theorem handleLoadRegs_eq_done {x : Reg} {s t : State} {c : StepCode} :
    handleLoadRegs hardware x s = .done t c ↔
      c = .one ∧ ∃ b, memRead s.mem s.I.toNat (x.val + 1) = some b ∧ t = s.setRegsFrom 0 b := by
  unfold handleLoadRegs
  rw [orRaise_eq_done]
  simp only [Handled.done.injEq]
  constructor
  · rintro ⟨b, h, rfl, rfl⟩; exact ⟨rfl, b, h, rfl⟩
  · rintro ⟨rfl, b, h, rfl⟩; exact ⟨b, h, rfl, rfl⟩

/-- A draw is done only with the sprite's bytes (44_display.md R153). -/
theorem handleDrw_eq_done {x y : Reg} {n : Nibble} {s t : State} {c : StepCode} :
    handleDrw hardware x y n s = .done t c ↔
      c = .one ∧ ∃ b, spriteBytes hardware s n = some b ∧
        t = (s.setFb (blit (s.reg x) (s.reg y) b s.fb).1).setReg vf
          (flagByte (blit (s.reg x) (s.reg y) b s.fb).2) := by
  unfold handleDrw
  rw [orRaise_eq_done]
  simp only [Handled.done.injEq]
  constructor
  · rintro ⟨b, h, rfl, rfl⟩; exact ⟨rfl, b, h, rfl⟩
  · rintro ⟨rfl, b, h, rfl⟩; exact ⟨b, h, rfl, rfl⟩

/-- A key wait polls again, or is done with the least pressed key (45_keyboard_timer.md R162). -/
theorem handleLdVxK_eq_done {x : Reg} {s t : State} {c : StepCode} :
    handleLdVxK x s = .done t c ↔
      (s.lowestKey = none ∧ c = .zero ∧ t = s) ∨
        ∃ k, s.lowestKey = some k ∧ c = .one ∧ t = s.setReg x (keyByte k) := by
  unfold handleLdVxK
  cases s.lowestKey with
  | none => simp [eq_comm, and_comm]
  | some k => simp [eq_comm, and_comm]

/-! ## Bytes and words (20_memory.md R44, R47) -/

theorem wordOfBytes_toNat (hi lo : Byte) : (wordOfBytes hi lo).toNat = 256 * hi.toNat + lo.toNat := by
  show (hi ++ lo : BitVec (8 + 8)).toNat = _
  have := lo.isLt
  rw [BitVec.toNat_append, ← Nat.shiftLeft_add_eq_or_of_lt (by omega), Nat.shiftLeft_eq]
  omega

theorem wordOfBytes_hiByte_loByte (w : Word) : wordOfBytes (hiByte w) (loByte w) = w := by
  apply BitVec.eq_of_toNat_eq
  have := w.isLt
  rw [wordOfBytes_toNat, hiByte, loByte, BitVec.extractLsb'_toNat, BitVec.extractLsb'_toNat,
    Nat.shiftRight_eq_div_pow]
  omega

end Sys2Proof.Laws
end

