-- ==== Sys2Proof/Laws/Oracle.lean ====
section
/-! SUPPORT. The random byte is an input of the step and `draws` only its place in the sequence: on the state of
10_state.md R10 a step is a function of that state and the byte (R11, U12). -/

namespace Sys2Proof.Laws

open Sys2Proof.Machine

/-- The core's part of a handler's answer. -/
def coreAnswer : Handled → Except Diag (CoreState × StepCode)
  | .done t c => .ok (t.toCoreState, c)
  | .raised d => .error d

theorem coreAnswer_orRaise {α : Type} (d : Diag) (o : Option α) (k k' : α → Handled)
    (h : ∀ a, coreAnswer (k a) = coreAnswer (k' a)) : coreAnswer (orRaise d o k) = coreAnswer (orRaise d o k') := by
  cases o with
  | none => rfl
  | some a => exact h a

theorem setRegsFrom_core (bytes : List Byte) (i : Nat) {s u : State} (h : s.toCoreState = u.toCoreState) :
    (s.setRegsFrom i bytes).toCoreState = (u.setRegsFrom i bytes).toCoreState := by
  induction bytes generalizing s u i with
  | nil => exact h
  | cons b bs ih =>
    unfold State.setRegsFrom
    split
    · exact ih _ (by simp only [State.setReg, h])
    · exact h

theorem advance_core {s u : State} (h : s.toCoreState = u.toCoreState) (c : StepCode) :
    (s.advance c).toCoreState = (u.advance c).toCoreState := by
  simp only [State.advance, State.setPc, h]

/-- A handler given its random byte does not read `draws`. -/
theorem coreAnswer_handleWith (p : Config.Params) (r : Byte) (i : Instr) (c : CoreState) (m n : Nat) :
    coreAnswer (handleWith p r i ⟨c, m⟩) = coreAnswer (handleWith p r i ⟨c, n⟩) := by
  cases i <;> try rfl
  case ret =>
    show coreAnswer (handleRet ⟨c, m⟩) = coreAnswer (handleRet ⟨c, n⟩)
    unfold handleRet
    by_cases h : c.sp = 0#8
    · simp [h]
    · simp only [h, if_false]
      exact coreAnswer_orRaise _ _ _ _ fun _ => rfl
  case call nnn =>
    show coreAnswer (handleCall p nnn ⟨c, m⟩) = coreAnswer (handleCall p nnn ⟨c, n⟩)
    unfold handleCall State.stackWrite
    by_cases h : c.sp.toNat + 1 < Config.stackSlots
    · simp only [h, dite_true]; rfl
    · simp only [h, dite_false]
  case ldVxK x =>
    show coreAnswer (handleLdVxK x ⟨c, m⟩) = coreAnswer (handleLdVxK x ⟨c, n⟩)
    have h : State.lowestKey ⟨c, m⟩ = State.lowestKey ⟨c, n⟩ := rfl
    unfold handleLdVxK
    rw [h]
    cases State.lowestKey ⟨c, n⟩ <;> rfl
  case loadRegs x =>
    exact coreAnswer_orRaise _ _ _ _ fun b => by
      simp only [coreAnswer, setRegsFrom_core b 0 (s := ⟨c, m⟩) (u := ⟨c, n⟩) rfl]
  all_goals exact coreAnswer_orRaise _ _ _ _ fun _ => rfl

/-- A settled handler's core, and its diagnostic, from its answer's core. -/
theorem settle_core {s u : State} {h k : Handled} (hs : s.toCoreState = u.toCoreState)
    (hk : coreAnswer h = coreAnswer k) :
    (s.settle h).toCoreState = (u.settle k).toCoreState ∧ h.diag = k.diag := by
  cases h with
  | done t c =>
    cases k with
    | done v d =>
      simp only [coreAnswer, Except.ok.injEq, Prod.mk.injEq] at hk
      obtain ⟨hv, rfl⟩ := hk
      exact ⟨advance_core hv c, rfl⟩
    | raised e => simp [coreAnswer] at hk
  | raised d =>
    cases k with
    | done v c => simp [coreAnswer] at hk
    | raised e =>
      simp only [coreAnswer, Except.error.injEq] at hk
      exact ⟨advance_core hs .one, congrArg some hk⟩

theorem coreAnswer_handleWord (p : Config.Params) (r : Byte) (w : Word) (c : CoreState) (m n : Nat) :
    coreAnswer (handleWord p r w ⟨c, m⟩) = coreAnswer (handleWord p r w ⟨c, n⟩) := by
  unfold handleWord
  cases decode w with
  | ok i => exact coreAnswer_handleWith p r i c m n
  | error e => rfl

/-- What a step does to the core and what it reports are functions of the core and of the byte. -/
theorem nextOf_core (p : Config.Params) (r : Byte) (s : State) :
    (nextOf p r s).toCoreState = coreStep p r s.toCoreState ∧ reportOf p r s = coreReport p r s.toCoreState := by
  obtain ⟨c, n⟩ := s
  unfold coreStep coreReport nextOf reportOf
  dsimp only
  cases fetchWordOf p c.mem c.pc.toNat with
  | none => exact ⟨rfl, rfl⟩
  | some w =>
    obtain ⟨h1, h2⟩ := settle_core (s := State.latch ⟨c, n⟩ w) (u := State.latch ⟨c, 0⟩ w) rfl
      (coreAnswer_handleWord p r w _ n 0)
    exact ⟨h1, congrArg StepReport.executed h2⟩

/-- The host's step is the step of R10's state with the byte that `draws` selects, and `draws` does nothing
else: it changes neither the core nor the report in any other way. -/
theorem step_core {s t : State} (h : step s = .next t) :
    t.toCoreState = coreStep hardware s.nextRandom s.toCoreState ∧
      stepReport s = coreReport hardware s.nextRandom s.toCoreState := by
  rw [step_eq_stepOf] at h
  injection h with h
  exact h ▸ nextOf_core hardware s.nextRandom s

/-- Two states that agree on R10's fields and on the next byte step alike. -/
theorem step_core_congr {s u t v : State} (hc : s.toCoreState = u.toCoreState) (hr : s.nextRandom = u.nextRandom)
    (hs : step s = .next t) (hu : step u = .next v) :
    t.toCoreState = v.toCoreState ∧ stepReport s = stepReport u := by
  rw [(step_core hs).1, (step_core hs).2, (step_core hu).1, (step_core hu).2, hc, hr]
  exact ⟨rfl, rfl⟩

/-- Cxkk alone consumes the byte (10_state.md R11). -/
theorem handleWith_byte {i : Instr} (h : ∀ x kk, i ≠ .rnd x kk) (p : Config.Params) (r q : Byte) (s : State) :
    handleWith p r i s = handleWith p q i s := by
  cases i <;> first | rfl | exact absurd rfl (h _ _)

/-- The other events of the interface act on R10's state alone. -/
theorem apply_core {s u t v : State} {e : RunEvent} (he : e ≠ .step) (hc : s.toCoreState = u.toCoreState)
    (hs : e.apply s = .next t) (hu : e.apply u = .next v) :
    t.toCoreState = v.toCoreState ∧ e.output s = e.output u := by
  obtain ⟨c, m⟩ := s
  obtain ⟨c', n⟩ := u
  cases hc
  cases e with
  | step => exact absurd rfl he
  | tickDelay =>
    injection hs with hs; injection hu with hu; subst hs hu
    refine ⟨?_, rfl⟩
    unfold tickDelay
    dsimp only
    split <;> rfl
  | tickSound =>
    injection hs with hs; injection hu with hu; subst hs hu
    refine ⟨?_, rfl⟩
    unfold tickSound
    dsimp only
    split <;> rfl
  | keyPress k => injection hs with hs; injection hu with hu; subst hs hu; exact ⟨rfl, rfl⟩
  | keyRelease k => injection hs with hs; injection hu with hu; subst hs hu; exact ⟨rfl, rfl⟩
  | snapshot => injection hs with hs; injection hu with hu; subst hs hu; exact ⟨rfl, rfl⟩
  | displayUpdated => injection hs with hs; injection hu with hu; subst hs hu; exact ⟨rfl, rfl⟩

end Sys2Proof.Laws
end

