-- ==== Sys2Proof/Laws/PerInstr.lean ====
section
/-! SUPPORT. Facts about every instruction as syntax, one lemma per constructor. -/

namespace Sys2Proof.Laws

/-- The encoded word selects the instruction's own row of the opcode table: `encode i & mask = pattern`
(30_encoding.md R74). -/
def EncodedInRow.Statement (i : Instr) : Prop := i.row.selects (encode i) = true

theorem EncodedInRow.cls : EncodedInRow.Statement .cls := rfl

theorem EncodedInRow.ret : EncodedInRow.Statement .ret := rfl

theorem EncodedInRow.sys (nnn : Addr12) : EncodedInRow.Statement (.sys nnn) := beq_iff_eq.2 (wordA_and_F000 _ _)

theorem EncodedInRow.jp (nnn : Addr12) : EncodedInRow.Statement (.jp nnn) := beq_iff_eq.2 (wordA_and_F000 _ _)

theorem EncodedInRow.call (nnn : Addr12) : EncodedInRow.Statement (.call nnn) := beq_iff_eq.2 (wordA_and_F000 _ _)

theorem EncodedInRow.seImm (x : Reg) (kk : Byte) : EncodedInRow.Statement (.seImm x kk) := beq_iff_eq.2 (wordXK_and_F000 _ _ _)

theorem EncodedInRow.sneImm (x : Reg) (kk : Byte) : EncodedInRow.Statement (.sneImm x kk) := beq_iff_eq.2 (wordXK_and_F000 _ _ _)

theorem EncodedInRow.seReg (x : Reg) (y : Reg) : EncodedInRow.Statement (.seReg x y) := beq_iff_eq.2 (wordXYN_and_F00F _ _ _ _)

theorem EncodedInRow.ldImm (x : Reg) (kk : Byte) : EncodedInRow.Statement (.ldImm x kk) := beq_iff_eq.2 (wordXK_and_F000 _ _ _)

theorem EncodedInRow.addImm (x : Reg) (kk : Byte) : EncodedInRow.Statement (.addImm x kk) := beq_iff_eq.2 (wordXK_and_F000 _ _ _)

theorem EncodedInRow.ldReg (x : Reg) (y : Reg) : EncodedInRow.Statement (.ldReg x y) := beq_iff_eq.2 (wordXYN_and_F00F _ _ _ _)

theorem EncodedInRow.orReg (x : Reg) (y : Reg) : EncodedInRow.Statement (.orReg x y) := beq_iff_eq.2 (wordXYN_and_F00F _ _ _ _)

theorem EncodedInRow.andReg (x : Reg) (y : Reg) : EncodedInRow.Statement (.andReg x y) := beq_iff_eq.2 (wordXYN_and_F00F _ _ _ _)

theorem EncodedInRow.xorReg (x : Reg) (y : Reg) : EncodedInRow.Statement (.xorReg x y) := beq_iff_eq.2 (wordXYN_and_F00F _ _ _ _)

theorem EncodedInRow.addReg (x : Reg) (y : Reg) : EncodedInRow.Statement (.addReg x y) := beq_iff_eq.2 (wordXYN_and_F00F _ _ _ _)

theorem EncodedInRow.sub (x : Reg) (y : Reg) : EncodedInRow.Statement (.sub x y) := beq_iff_eq.2 (wordXYN_and_F00F _ _ _ _)

theorem EncodedInRow.shr (x : Reg) (y : Reg) : EncodedInRow.Statement (.shr x y) := beq_iff_eq.2 (wordXYN_and_F00F _ _ _ _)

theorem EncodedInRow.subn (x : Reg) (y : Reg) : EncodedInRow.Statement (.subn x y) := beq_iff_eq.2 (wordXYN_and_F00F _ _ _ _)

theorem EncodedInRow.shl (x : Reg) (y : Reg) : EncodedInRow.Statement (.shl x y) := beq_iff_eq.2 (wordXYN_and_F00F _ _ _ _)

theorem EncodedInRow.sneReg (x : Reg) (y : Reg) : EncodedInRow.Statement (.sneReg x y) := beq_iff_eq.2 (wordXYN_and_F00F _ _ _ _)

theorem EncodedInRow.ldI (nnn : Addr12) : EncodedInRow.Statement (.ldI nnn) := beq_iff_eq.2 (wordA_and_F000 _ _)

theorem EncodedInRow.jpV0 (nnn : Addr12) : EncodedInRow.Statement (.jpV0 nnn) := beq_iff_eq.2 (wordA_and_F000 _ _)

theorem EncodedInRow.rnd (x : Reg) (kk : Byte) : EncodedInRow.Statement (.rnd x kk) := beq_iff_eq.2 (wordXK_and_F000 _ _ _)

theorem EncodedInRow.drw (x : Reg) (y : Reg) (n : Nibble) : EncodedInRow.Statement (.drw x y n) := beq_iff_eq.2 (wordXYN_and_F000 _ _ _ _)

theorem EncodedInRow.skp (x : Reg) : EncodedInRow.Statement (.skp x) := beq_iff_eq.2 (wordXK_and_F0FF _ _ _)

theorem EncodedInRow.sknp (x : Reg) : EncodedInRow.Statement (.sknp x) := beq_iff_eq.2 (wordXK_and_F0FF _ _ _)

theorem EncodedInRow.ldVxDT (x : Reg) : EncodedInRow.Statement (.ldVxDT x) := beq_iff_eq.2 (wordXK_and_F0FF _ _ _)

theorem EncodedInRow.ldVxK (x : Reg) : EncodedInRow.Statement (.ldVxK x) := beq_iff_eq.2 (wordXK_and_F0FF _ _ _)

theorem EncodedInRow.ldDTVx (x : Reg) : EncodedInRow.Statement (.ldDTVx x) := beq_iff_eq.2 (wordXK_and_F0FF _ _ _)

theorem EncodedInRow.ldSTVx (x : Reg) : EncodedInRow.Statement (.ldSTVx x) := beq_iff_eq.2 (wordXK_and_F0FF _ _ _)

theorem EncodedInRow.addI (x : Reg) : EncodedInRow.Statement (.addI x) := beq_iff_eq.2 (wordXK_and_F0FF _ _ _)

theorem EncodedInRow.ldF (x : Reg) : EncodedInRow.Statement (.ldF x) := beq_iff_eq.2 (wordXK_and_F0FF _ _ _)

theorem EncodedInRow.ldB (x : Reg) : EncodedInRow.Statement (.ldB x) := beq_iff_eq.2 (wordXK_and_F0FF _ _ _)

theorem EncodedInRow.storeRegs (x : Reg) : EncodedInRow.Statement (.storeRegs x) := beq_iff_eq.2 (wordXK_and_F0FF _ _ _)

theorem EncodedInRow.loadRegs (x : Reg) : EncodedInRow.Statement (.loadRegs x) := beq_iff_eq.2 (wordXK_and_F0FF _ _ _)

end Sys2Proof.Laws
end

