-- ==== Sys2Proof/Tests/Slice0.lean ====
section
/-! SUPPORT. Tests. Expected values come from the tables of 95_test_vectors.md (named in each group) and
from the encodings of 30_encoding.md; then one witness for every statement that has hypotheses. -/

namespace Sys2Proof.Tests

open Sys2Proof.Machine

/-! ## Helpers -/

/-- The reset state with one word where the next step fetches it. -/
def placed (w : Nat) : State := State.reset.withFetchWord 16 w

/-- The step from `s` answers a next state in which `p` holds. -/
def stepsTo (s : State) (p : State → Bool) : Bool :=
  match step s with
  | .next t => p t
  | .fault _ => false
  | .refused _ => false

/-! ## WellFormed (30_encoding.md R74: 00E0 and 00EE are rows of their own) -/

theorem test_wf_sys_0E0_refused : (Instr.sys 0x0E0).wellFormed = false := by decide

theorem test_wf_sys_0EE_refused : (Instr.sys 0x0EE).wellFormed = false := by decide

theorem test_wf_sys_0E1_accepted : (Instr.sys 0x0E1).wellFormed = true := by decide

/-! ## Decoding: one word a constructor, bit by bit from 30_encoding.md R74 -/

theorem test_decode_cls : decode 0b0000_0000_1110_0000 = .ok .cls := by decide

theorem test_decode_ret : decode 0b0000_0000_1110_1110 = .ok .ret := by decide

theorem test_decode_sys : decode 0b0000_0000_1110_0001 = .ok (.sys 0x0E1) := by decide

theorem test_decode_jp : decode 0b0001_0010_0000_0100 = .ok (.jp 0x204) := by decide

theorem test_decode_call : decode 0b0010_1010_1011_1100 = .ok (.call 0xABC) := by decide

theorem test_decode_seImm : decode 0b0011_0001_0010_0011 = .ok (.seImm 1 0x23) := by decide

theorem test_decode_sneImm : decode 0b0100_0001_0010_0011 = .ok (.sneImm 1 0x23) := by decide

theorem test_decode_seReg : decode 0b0101_0001_0010_0000 = .ok (.seReg 1 2) := by decide

theorem test_decode_ldImm : decode 0b0110_0011_1010_1011 = .ok (.ldImm 3 0xAB) := by decide

theorem test_decode_addImm : decode 0b0111_0001_0000_1111 = .ok (.addImm 1 0x0F) := by decide

theorem test_decode_ldReg : decode 0b1000_0001_0010_0000 = .ok (.ldReg 1 2) := by decide

theorem test_decode_orReg : decode 0b1000_0001_0010_0001 = .ok (.orReg 1 2) := by decide

theorem test_decode_andReg : decode 0b1000_0001_0010_0010 = .ok (.andReg 1 2) := by decide

theorem test_decode_xorReg : decode 0b1000_0001_0010_0011 = .ok (.xorReg 1 2) := by decide

theorem test_decode_addReg : decode 0b1000_1010_1011_0100 = .ok (.addReg 10 11) := by decide

theorem test_decode_sub : decode 0b1000_0001_0010_0101 = .ok (.sub 1 2) := by decide

theorem test_decode_shr : decode 0b1000_0001_0010_0110 = .ok (.shr 1 2) := by decide

theorem test_decode_subn : decode 0b1000_0001_0010_0111 = .ok (.subn 1 2) := by decide

theorem test_decode_shl : decode 0b1000_0001_0010_1110 = .ok (.shl 1 2) := by decide

theorem test_decode_sneReg : decode 0b1001_1010_1011_0000 = .ok (.sneReg 10 11) := by decide

theorem test_decode_ldI : decode 0b1010_0001_0010_0011 = .ok (.ldI 0x123) := by decide

theorem test_decode_jpV0 : decode 0b1011_0011_0000_0001 = .ok (.jpV0 0x301) := by decide

theorem test_decode_rnd : decode 0b1100_0001_0000_0111 = .ok (.rnd 1 0x07) := by decide

theorem test_decode_drw : decode 0b1101_0001_0010_1111 = .ok (.drw 1 2 15) := by decide

theorem test_decode_skp : decode 0b1110_0001_1001_1110 = .ok (.skp 1) := by decide

theorem test_decode_sknp : decode 0b1110_0001_1010_0001 = .ok (.sknp 1) := by decide

theorem test_decode_ldVxDT : decode 0b1111_0010_0000_0111 = .ok (.ldVxDT 2) := by decide

theorem test_decode_ldVxK : decode 0b1111_0010_0000_1010 = .ok (.ldVxK 2) := by decide

theorem test_decode_ldDTVx : decode 0b1111_0010_0001_0101 = .ok (.ldDTVx 2) := by decide

theorem test_decode_ldSTVx : decode 0b1111_0010_0001_1000 = .ok (.ldSTVx 2) := by decide

theorem test_decode_addI : decode 0b1111_0010_0001_1110 = .ok (.addI 2) := by decide

theorem test_decode_ldF : decode 0b1111_0010_0010_1001 = .ok (.ldF 2) := by decide

theorem test_decode_ldB : decode 0b1111_0010_0011_0011 = .ok (.ldB 2) := by decide

theorem test_decode_storeRegs : decode 0b1111_0010_0101_0101 = .ok (.storeRegs 2) := by decide

theorem test_decode_loadRegs : decode 0b1111_1111_0110_0101 = .ok (.loadRegs 15) := by decide

/-- The words marked invalid in 95_test_vectors.md group D. -/
theorem test_decode_invalid :
    ([0x5121, 0x8008, 0x800F, 0x9AB1, 0xE09F, 0xE100, 0xF075, 0xF000, 0xFFFF] : List Word).all
      (fun w => decode w == .error (.invalidOpcode w)) = true := by decide

theorem test_decodeBytes_big_endian : decodeBytes [0x63, 0xAB, 0x12] = .ok (.ldImm 3 0xAB, [0x12]) := by decide

theorem test_decodeBytes_truncated : decodeBytes [0x63] = .error .truncated := by decide

theorem test_decodeTableWord : decodeTableWord 16 0xD12F = some (.drw 1 2 15) := by decide

theorem test_decodeTableWord_invalid : decodeTableWord 16 0x5121 = none := by decide

theorem test_encode_drw : encodeBytes (.drw 1 2 15) = [0xD1, 0x2F] := by decide

/-! ## Control transfer (group C) -/

theorem test_jp : stepsTo (placed 0x1FFF) (fun t => t.pc == 0x0FFF && t.IR == 0x1FFF) = true := by decide

theorem test_call : stepsTo (placed 0x2206)
    (fun t => t.pc == 0x0206 && t.sp == 1 && t.stack[1] == 0x0200) = true := by decide

/-- The other value of the parameter `CALL_LINK_OFFSET` (group P6, second table: step 1). -/
theorem test_call_link_offset_two :
    (match stepOf { hardware with callLinkOffset := 2 } (placed 0x2206) with
      | .next t => t.pc == 0x0206 && t.sp == 1 && t.stack[1] == 0x0202 && t.IR == 0x2206
      | .fault _ => false
      | .refused _ => false) = true := by decide

theorem test_call_overflow : stepsTo ((placed 0x2300).setSp 15)
    (fun t => t.pc == 0x0202 && t.sp == 15 && t.stack[15] == 0) = true := by decide

theorem test_ret : stepsTo ({ placed 0x00EE with sp := 1, stack := State.reset.stack.set 1 0x0250 })
    (fun t => t.pc == 0x0250 && t.sp == 0 && t.stack[1] == 0x0250) = true := by decide

theorem test_ret_underflow : stepsTo (placed 0x00EE) (fun t => t.pc == 0x0202 && t.sp == 0) = true := by decide

theorem test_jpV0 : stepsTo ((placed 0xBFFF).setReg 0 0xFF) (fun t => t.pc == 0x10FE) = true := by decide

theorem test_sys_parks : stepsTo (placed 0x0123) (fun t => t.pc == 0x0200 && t.IR == 0x0123) = true := by decide

theorem test_fetch_stall : step ((placed 0x6012).setPc 0x069F) = .next ((placed 0x6012).setPc 0x069F) := rfl

/-! ## Skips (group K) -/

theorem test_seImm_skips : stepsTo ((placed 0x3122).setReg 1 0x22) (fun t => t.pc == 0x0204) = true := by decide

theorem test_sneImm_stays : stepsTo ((placed 0x4122).setReg 1 0x22) (fun t => t.pc == 0x0202) = true := by decide

theorem test_seReg_stays : stepsTo (((placed 0x5120).setReg 1 7).setReg 2 8) (fun t => t.pc == 0x0202) = true := by decide

theorem test_sneReg_skips : stepsTo (((placed 0x9120).setReg 1 7).setReg 2 8) (fun t => t.pc == 0x0204) = true := by decide

/-! ## Loads and arithmetic (groups A0 to AC) -/

theorem test_ldImm_VF : stepsTo (placed 0x6F12) (fun t => t.reg 15 == 0x12 && t.pc == 0x0202) = true := by decide

theorem test_addImm_wraps : stepsTo (((placed 0x7101).setReg 1 0xFF).setReg 15 0x55)
    (fun t => t.reg 1 == 0x00 && t.reg 15 == 0x55) = true := by decide

theorem test_ldReg : stepsTo ((placed 0x8120).setReg 2 0x5A) (fun t => t.reg 1 == 0x5A && t.reg 2 == 0x5A) = true := by decide

theorem test_orReg : stepsTo ((((placed 0x8121).setReg 1 0xF0).setReg 2 0x0F).setReg 15 0x55)
    (fun t => t.reg 1 == 0xFF && t.reg 15 == 0x55) = true := by decide

theorem test_andReg : stepsTo ((((placed 0x8122).setReg 1 0xF0).setReg 2 0x3C).setReg 15 0x55)
    (fun t => t.reg 1 == 0x30 && t.reg 15 == 0x55) = true := by decide

theorem test_xorReg : stepsTo ((((placed 0x8123).setReg 1 0xFF).setReg 2 0x0F).setReg 15 0x55)
    (fun t => t.reg 1 == 0xF0 && t.reg 15 == 0x55) = true := by decide

theorem test_addReg_carry : stepsTo (((placed 0x8124).setReg 1 0xFF).setReg 2 0x01)
    (fun t => t.reg 1 == 0x00 && t.reg 15 == 0x01) = true := by decide

theorem test_addReg_into_VF : stepsTo (((placed 0x8F24).setReg 2 0x20).setReg 15 0xF0)
    (fun t => t.reg 2 == 0x20 && t.reg 15 == 0x21) = true := by decide

theorem test_sub_equal : stepsTo ((((placed 0x8125).setReg 1 5).setReg 2 5).setReg 15 0x55)
    (fun t => t.reg 1 == 0 && t.reg 15 == 0) = true := by decide

theorem test_sub_VF_operand : stepsTo (((placed 0x81F5).setReg 1 0x40).setReg 15 0x10)
    (fun t => t.reg 1 == 0x3F && t.reg 15 == 1) = true := by decide

theorem test_shr_ignores_Vy : stepsTo (((placed 0x8126).setReg 1 0x03).setReg 2 0xAA)
    (fun t => t.reg 1 == 0x01 && t.reg 15 == 1 && t.reg 2 == 0xAA) = true := by decide

theorem test_shr_VF : stepsTo ((placed 0x8F26).setReg 15 0x03) (fun t => t.reg 15 == 0) = true := by decide

theorem test_subn_writes_Vy : stepsTo (((placed 0x8127).setReg 1 0x0A).setReg 2 0x05)
    (fun t => t.reg 1 == 0x0A && t.reg 2 == 0xFB && t.reg 15 == 0) = true := by decide

theorem test_subn_VF_destination : stepsTo (((placed 0x81F7).setReg 1 0x10).setReg 15 0x30)
    (fun t => t.reg 1 == 0x10 && t.reg 15 == 0xF1) = true := by decide

theorem test_shl_flag_in_place : stepsTo (((placed 0x812E).setReg 1 0x81).setReg 2 0xAA)
    (fun t => t.reg 1 == 0x02 && t.reg 15 == 0x80 && t.reg 2 == 0xAA) = true := by decide

theorem test_shl_VF : stepsTo ((placed 0x8F2E).setReg 15 0x81) (fun t => t.reg 15 == 0) = true := by decide

theorem test_rnd_shift : (shiftByRandom 0x03 0x05 0xFF == 0x60 && shiftByRandom 0xFF 0x08 0xFF == 0x00 &&
    shiftByRandom 0x01 0x27 0x0F == 0x80) = true := by decide

/-- The step of R10's state with the random byte as its input (42_load_alu.md R132). -/
theorem test_rnd_byte_is_input :
    (coreStep hardware 0x05 ((placed 0xC1FF).setReg 1 0x03).toCoreState).x[1] = 0x60 := by decide

/-! ## Index and memory (group I) -/

theorem test_ldI : stepsTo (placed 0xAFFF) (fun t => t.I == 0x0FFF) = true := by decide

theorem test_addI_wraps : stepsTo (((placed 0xF11E).setI 0xFFFF).setReg 1 1)
    (fun t => t.I == 0x0000 && t.reg 15 == 0) = true := by decide

theorem test_ldF_not_masked : stepsTo ((placed 0xF129).setReg 1 0xFF) (fun t => t.I == 0x04FB) = true := by decide

theorem test_ldB : stepsTo (((placed 0xF133).setReg 1 0xEA).setI 0x0300)
    (fun t => t.mem.peek 0x300 == 2 && t.mem.peek 0x301 == 3 && t.mem.peek 0x302 == 4 && t.I == 0x0300) = true := by decide

theorem test_ldB_outside : stepsTo (((placed 0xF133).setReg 1 0xEA).setI 0x069E)
    (fun t => t.mem == (placed 0xF133).mem && t.pc == 0x0202) = true := by decide

theorem test_storeRegs : stepsTo ((((placed 0xF155).setReg 0 0x6A).setReg 1 0x77).setI 0x0208)
    (fun t => t.mem.peek 0x208 == 0x6A && t.mem.peek 0x209 == 0x77 && t.mem.peek 0x20A == 0) = true := by decide

theorem test_loadRegs : stepsTo ((placed 0xF165).setI 0x0200)
    (fun t => t.reg 0 == 0xF1 && t.reg 1 == 0x65 && t.reg 2 == 0 && t.I == 0x0200) = true := by decide

theorem test_loadRegs_across_windows : stepsTo ((placed 0xF165).setI 0x01FF)
    (fun t => t.reg 0 == 0 && t.reg 1 == 0 && t.pc == 0x0202) = true := by decide

/-! ## Display (group B) -/

theorem test_cls : stepsTo ((placed 0x00E0).setFb (blit 0 0 [0xFF] clearFb).1) (fun t => t.fb == clearFb) = true := by decide

theorem test_drw_reads_sprite : stepsTo ((placed 0xD122).setI 0x0200)
    (fun t => fbByte t.fb 0 0 == 0xD1 && fbByte t.fb 1 0 == 0x22 && t.reg 15 == 0) = true := by decide

theorem test_drw_no_rows : stepsTo (((placed 0xD120).setI 0xFFFF).setReg 15 1)
    (fun t => t.fb == clearFb && t.reg 15 == 0 && t.pc == 0x0202) = true := by decide

theorem test_blit_wraps : ((blit 60 30 [0xF0, 0x90, 0x90] clearFb).2 == false &&
    fbByte (blit 60 30 [0xF0, 0x90, 0x90] clearFb).1 30 7 == 0x0F &&
    fbByte (blit 60 30 [0xF0, 0x90, 0x90] clearFb).1 0 7 == 0x09) = true := by decide

/-! ## Keys and timers (groups KB and T) -/

theorem test_skp : stepsTo (keyPress 5 ((placed 0xE19E).setReg 1 5)) (fun t => t.pc == 0x0204) = true := by decide

theorem test_sknp : stepsTo (keyPress 5 ((placed 0xE1A1).setReg 1 5)) (fun t => t.pc == 0x0204) = true := by decide

theorem test_ldVxK_least : stepsTo (keyPress 7 (keyPress 2 (placed 0xF10A)))
    (fun t => t.reg 1 == 2 && t.pc == 0x0202) = true := by decide

theorem test_ldVxK_waits : stepsTo (placed 0xF10A) (fun t => t.reg 1 == 0 && t.pc == 0x0200) = true := by decide

theorem test_ldVxDT : stepsTo ((placed 0xF207).setDT 9) (fun t => t.reg 2 == 9) = true := by decide

theorem test_ldDTVx : stepsTo ((placed 0xF015).setReg 0 3) (fun t => t.DT == 3 && t.ST == 0) = true := by decide

theorem test_ldSTVx : stepsTo ((placed 0xF018).setReg 0 3) (fun t => t.ST == 3 && t.DT == 0) = true := by decide

theorem test_tick_stops_at_zero : (tickDelay (placed 0)).DT = 0 ∧ (tickDelay ((placed 0).setDT 1)).DT = 0 := by decide

theorem test_displayUpdated : displayUpdated ((placed 0).latch 0xD005) = true := by decide

/-! ## Reports (60_exceptions.md R171) -/

theorem test_report_invalid : stepReport (placed 0x5121) = .executed (some .invalidOpcode) := by decide

theorem test_report_underflow : stepReport (placed 0x00EE) = .executed (some .stackUnderflow) := by decide

theorem test_report_stalled : stepReport ((placed 0x6012).setPc 0x0100) = .stalled := by decide

/-! ## Witnesses: states and operands that meet the hypotheses of each statement -/

theorem witness_DecodeOfEncodeIsIdentity : (Instr.sys 0xFFF).wellFormed = true ∧ (Instr.drw 1 2 15).wellFormed = true := by decide

theorem witness_EncodeOfDecodeIsIdentity : decode 0x0FFF = .ok (.sys 0xFFF) ∧ decode 0xF265 = .ok (.loadRegs 2) := by decide

/-- Both cases of the statement: a word that selects a row and one that selects none. -/
theorem witness_DecodeTakesFirstSelectedRow :
    (opcodeRows.find? (fun r => r.selects 0x00E0)) = some ⟨0xFFFF, 0x00E0⟩ ∧
      (opcodeRows.find? (fun r => r.selects 0x5121)) = none := by decide

theorem witness_StepRunsDecodedInstruction : Fetchable (placed 0x63AB).pc ∧
    decodeBytes [(placed 0x63AB).mem.peek (placed 0x63AB).pc.toNat,
      (placed 0x63AB).mem.peek ((placed 0x63AB).pc.toNat + 1)] = .ok (.ldImm 3 0xAB, []) :=
  ⟨⟨by decide, by decide⟩, by decide⟩

/-- The last addresses outside the fetchable range, and the first and last inside. -/
theorem witness_UnfetchablePcStallsStep :
    stepReport ((placed 0).setPc 0x01FF) = .stalled ∧ stepReport ((placed 0).setPc 0x069F) = .stalled ∧
      stepReport ((placed 0).setPc 0x0200) ≠ .stalled ∧ stepReport ((placed 0).setPc 0x069E) ≠ .stalled := by decide

theorem witness_FetchWordIsBigEndianInProgramWindow :
    fetchWord (placed 0x63AB).mem 0x200 = some 0x63AB ∧ fetchWord (placed 0x63AB).mem 0x69E = some 0 ∧
      fetchWord (placed 0x63AB).mem 0x1FF = none ∧ fetchWord (placed 0x63AB).mem 0x69F = none := by decide

theorem witness_InvalidWordIsSteppedOver : (placed 0x5121).fetch = some 0x5121 ∧
    ∀ r ∈ opcodeRows, (0x5121 : Word) &&& r.mask ≠ r.pattern := by decide

/-- Each clause at the edge of its range, raising and not raising. -/
theorem witness_DiagnosticsRaisedExactly :
    raisedBy .ret State.reset = some .stackUnderflow ∧ raisedBy .ret (State.reset.setSp 1) = none ∧
    raisedBy .ret (State.reset.setSp 15) = none ∧ raisedBy .ret (State.reset.setSp 16) = some .stackOverflow ∧
    raisedBy (.call 0x200) (State.reset.setSp 14) = none ∧
    raisedBy (.call 0x200) (State.reset.setSp 15) = some .stackOverflow := by decide

theorem witness_DiagnosticsRaisedExactly_memory :
    raisedBy (.ldB 0) (State.reset.setI 0x1FF) = some .invalidAddress ∧
    raisedBy (.ldB 0) (State.reset.setI 0x200) = none ∧ raisedBy (.ldB 0) (State.reset.setI 0x69D) = none ∧
    raisedBy (.ldB 0) (State.reset.setI 0x69E) = some .invalidAddress ∧
    raisedBy (.storeRegs 15) (State.reset.setI 0x690) = none ∧
    raisedBy (.storeRegs 15) (State.reset.setI 0x691) = some .invalidAddress ∧
    raisedBy (.loadRegs 15) (State.reset.setI 0x1F0) = none ∧
    raisedBy (.loadRegs 15) (State.reset.setI 0x1F1) = some .invalidAddress ∧
    raisedBy (.drw 0 0 1) (State.reset.setI 0x69F) = none ∧
    raisedBy (.drw 0 0 1) (State.reset.setI 0x6A0) = some .invalidAddress ∧
    raisedBy (.drw 0 0 0) (State.reset.setI 0x6A0) = none := by decide

theorem witness_DiagnosticSkipsInstruction :
    raisedBy (.ldB 0) (State.reset.setI 0xFFFF) = some .invalidAddress := by decide

/-- Group M: the spans at the edges of the two windows. -/
theorem witness_MemReadStaysInsideOneWindow :
    memRead [] 0x1F0 16 = some (List.replicate 16 0) ∧ memRead [] 0x1F1 16 = none ∧
    memRead [] 0x69F 1 = some [0] ∧ memRead [] 0x6A0 1 = none := by decide

theorem witness_MemWriteStaysInsideProgramWindow :
    memWrite [] 0x69D [2, 3, 4] = some [(0x69D, 2), (0x69E, 3), (0x69F, 4)] ∧ memWrite [] 0x69E [2, 3, 4] = none ∧
    memWrite [] 0x200 [1] = some [(0x200, 1)] ∧ memWrite [] 0x1FF [1] = none ∧ Memory.wf [] = true := by decide

theorem witness_SysLeavesStateAsItIs : (0x123 : Addr12) ≠ 0x0E0 ∧ (0x123 : Addr12) ≠ 0x0EE ∧
    (placed 0x0123).fetch = some (wordA 0x0#4 0x123) ∧
    runEvents ((placed 0x0123).latch 0x0123) [.step, .tickDelay] = .next ((placed 0x0123).latch 0x0123) :=
  ⟨by decide, by decide, by decide, rfl⟩

/-- The clauses of 1nnn: a jump to its own address, and targets just outside the fetchable range. -/
theorem witness_JumpSetsPcToAddress : State.reset.pc.toNat = (0x200 : Addr12).toNat ∧
    (0x1FF : Addr12).toNat < 0x200 ∧ 0x69E < (0x69F : Addr12).toNat := by decide

theorem witness_JumpV0AddsV0ToAddress : ((State.reset.setReg 0 1).reg 0).toNat + (0x1FE : Addr12).toNat < 0x200 ∧
    0x69E < ((State.reset.setReg 0 1).reg 0).toNat + (0x69E : Addr12).toNat := by decide

theorem witness_CallPushesItsOwnAddress : (State.reset.setSp 14).sp.toNat < 15 := by decide

theorem witness_RetPopsPc :
    ((State.reset.setSp 1).sp.toNat = (1 : Fin 16).val ∧ 1 ≤ (1 : Fin 16).val) ∧
      (State.reset.setSp 15).sp.toNat = (15 : Fin 16).val ∧ 1 ≤ (15 : Fin 16).val := by decide

theorem witness_RetResumesAtCall : (State.reset.setSp 0).sp.toNat < 15 ∧ (State.reset.setSp 14).sp.toNat < 15 := by decide

/-- The register numbers of the alias cases of 8xy4, 8xy5 and 8xy7 (neither, VF first, VF second, both); no pair
meets two of them. -/
theorem witness_alias_clauses :
    ((1 : Reg) ≠ 15 ∧ (2 : Reg) ≠ 15) ∧ ((15 : Reg) = 15 ∧ (2 : Reg) ≠ 15) ∧ ((1 : Reg) ≠ 15 ∧ (15 : Reg) = 15) ∧
      ((15 : Reg) = 15 ∧ (15 : Reg) = 15) := by decide

/-- A shift by 8 or more and the mask 0 of Cxkk: the clauses of its statement that have premises. -/
theorem witness_RandomShiftsVxLeft : 8 ≤ ((0x08 : Byte) &&& 0xFF).toNat ∧ shiftByRandom 0xFF 0x08 0xFF = 0 ∧
    shiftByRandom 0xAB 0x37 0 = 0xAB := by decide

theorem witness_BcdStoresThreeDigitsAtI : (0x200 ≤ (State.reset.setI 0x200).I.toNat ∧ (State.reset.setI 0x200).I.toNat ≤ 0x69D) ∧
    0x200 ≤ (State.reset.setI 0x69D).I.toNat ∧ (State.reset.setI 0x69D).I.toNat ≤ 0x69D := by decide

theorem witness_StoreRegistersWritesV0ToVxAtI :
    (0x200 ≤ (State.reset.setI 0x200).I.toNat ∧ (State.reset.setI 0x200).I.toNat + ((0 : Reg).val + 1) ≤ 0x6A0) ∧
    0x200 ≤ (State.reset.setI 0x690).I.toNat ∧ (State.reset.setI 0x690).I.toNat + ((15 : Reg).val + 1) ≤ 0x6A0 := by decide

theorem witness_LoadRegistersReadsV0ToVxFromI :
    (State.reset.setI 0x1F0).I.toNat + ((15 : Reg).val + 1) ≤ 0x200 ∧
    0x200 ≤ (State.reset.setI 0x690).I.toNat ∧ (State.reset.setI 0x690).I.toNat + ((15 : Reg).val + 1) ≤ 0x6A0 := by decide

theorem witness_DrawXorsSpritePixels : (15 : Nibble) ≠ 0 ∧
    (State.reset.setI 0x1F1).I.toNat + (15 : Nibble).toNat ≤ 0x200 ∧
    0x200 ≤ (State.reset.setI 0x691).I.toNat ∧ (State.reset.setI 0x691).I.toNat + (15 : Nibble).toNat ≤ 0x6A0 := by decide

/-- The pixel reading of a sprite at the wrapping corner: column 63 of row 31 and column 0 of row 0. -/
theorem witness_DrawXorsSpritePixels_corner :
    spritePixel 63 31 [0x80, 0x40] 63 31 = true ∧ spritePixel 63 31 [0x80, 0x40] 0 0 = true ∧
    spritePixel 63 31 [0x80, 0x40] 0 31 = false ∧ pixel (blit 63 31 [0x80, 0x40] clearFb).1 0 0 = true := by decide

theorem witness_SecondBlitCollidesOnDarkPixels : (List.replicate 15 (0xFF : Byte)).length ≤ 15 ∧
    spritePixel 0 0 (List.replicate 15 0xFF) 7 14 = true ∧ pixel clearFb 7 14 = false := by decide

theorem witness_KeySkipsBothTestPressed :
    ((State.reset.setReg 1 15).reg 1).toNat = (15 : KeyNumber).val ∧ 15 < ((State.reset.setReg 1 16).reg 1).toNat := by decide

/-- Both clauses: no key down, and key 15 the only one down. -/
theorem witness_WaitKeyPollsForLeastPressedKey : (∀ k : KeyNumber, State.reset.key[k] = false) ∧
    (keyPress 15 State.reset).key[(15 : KeyNumber)] = true ∧
    ∀ j : KeyNumber, j < 15 → (keyPress 15 State.reset).key[j] = false := by decide

theorem witness_ClearZeroesFramebuffer : (placed 0x00E0).fetch = some 0x00E0 := by decide

theorem witness_SoundTimerIsSetAndNeverRead :
    exec (.ldSTVx 1) (State.reset.setReg 1 2) = .next (((State.reset.setReg 1 2).setST 2).setPc 0x202) := rfl

theorem witness_KeyEventsSetOneFlag : (keyPress 3 State.reset).key[(3 : KeyNumber)] = true ∧
    State.reset.key[(3 : KeyNumber)] = false := by decide

theorem font_length : font.length = 80 := by decide

theorem witness_LoadPlacesImageZerosAndFont : font.length = 80 ∧
    (List.replicate 1184 (0x60 : Byte)).length ≤ 1184 ∧ 1184 < (List.replicate 1185 (0x60 : Byte)).length :=
  ⟨font_length, by rw [List.length_replicate], by rw [List.length_replicate]; decide⟩

theorem witness_SessionAdmitsBootOrderOnly : ([0x60, 0x0A] : List Byte).length ≤ 1184 ∧
    1184 < (List.replicate 1185 (0x60 : Byte)).length :=
  ⟨by decide, by rw [List.length_replicate]; decide⟩

theorem witness_InvariantHoldsAtResetAndLaunch : font.length = 80 ∧ ([0x60, 0x0A] : List Byte).length ≤ 1184 :=
  ⟨font_length, by decide⟩

/-- A state inside a subroutine that meets the invariant and steps by popping its return address. -/
def inSubroutine : State := { placed 0x00EE with sp := 1, stack := State.reset.stack.set 1 0x0250 }

theorem witness_StepKeepsInvariant :
    Inv inSubroutine ∧ step inSubroutine = .next (((inSubroutine.latch 0x00EE).setPc 0x0250).setSp 0) :=
  ⟨{ memCanonical := by decide
     spInRange := by decide
     slotZero := by decide
     slots := by unfold Fetchable; decide
     liveSlots := by unfold Fetchable; decide
     pcBound := by decide }, rfl⟩

theorem witness_EveryRunKeepsInvariant : Inv inSubroutine ∧
    runEvents inSubroutine [.tickDelay, .step] = .next (((inSubroutine.latch 0x00EE).setPc 0x0250).setSp 0) :=
  ⟨witness_StepKeepsInvariant.1, rfl⟩

theorem witness_StepKeepsInterpreterWindow :
    step (placed 0x1204) = .next (((placed 0x1204).latch 0x1204).setPc 0x204) ∧
    (0x1FF < 0x200 ∨ 0x6A0 ≤ 0x1FF) ∧ (0x6A0 < 0x200 ∨ 0x6A0 ≤ 0x6A0) :=
  ⟨rfl, by decide, by decide⟩

theorem witness_OnlyNamedInstructionsChangeEachPart :
    exec (.ldI 0x123) State.reset = .next ((State.reset.setI 0x123).setPc 0x202) := rfl

theorem witness_GeneralRegistersChangeOnlyWhereNamed :
    exec (.ldImm 3 0xAB) State.reset = .next ((State.reset.setReg 3 0xAB).setPc 0x202) ∧
    ((State.reset.setReg 3 0xAB).setPc 0x202).reg 3 ≠ State.reset.reg 3 := ⟨rfl, by decide⟩

theorem witness_StepLatchesFetchedWord : (placed 0x1204).fetch = some 0x1204 ∧
    step (placed 0x1204) = .next (((placed 0x1204).latch 0x1204).setPc 0x204) ∧
    ((placed 0x1204).setPc 0x69F).fetch = none := ⟨by decide, rfl, by decide⟩

/-- Each of the four kinds of parked state exists. -/
theorem witness_ParkedStatesAreExactlyFourKinds :
    (((placed 0).setPc 0x100).fetch = none ∧ SysPark (placed 0)) ∧ SelfJump ((placed 0x1200).latch 0x1200) ∧
      KeyWait ((placed 0xF10A).latch 0xF10A) :=
  ⟨⟨by decide, by decide, 0x000, by decide⟩, ⟨by decide, .inl ⟨0x200, by decide, by decide⟩⟩,
    ⟨by decide, ⟨1, by decide⟩, by decide⟩⟩

theorem witness_EndedRunStaysEnded : RunEnded (placed 0) ∧
    runEvents (placed 0) [.step, .keyPress 3, .step] = .next (keyPress 3 (placed 0)) :=
  ⟨.inr (.inl ⟨by decide, 0x000, by decide⟩), rfl⟩

end Sys2Proof.Tests
end

/-! # Proofs of the family 10_state: the invariants of reachable states, and what a step does to `IR` and to the
general registers (10_state.md R12, R13, R21, R25 to R27). -/

namespace Sys2Proof.Proofs

open Sys2Proof.Machine Sys2Proof.Laws

/-! ## Operands and step codes as numbers -/

theorem addrOf_toNat (nnn : Addr12) : (addrOf nnn).toNat = nnn.toNat :=
  BitVec.toNat_setWidth_of_le (by decide)

theorem wide_toNat (v : Byte) : (wide v).toNat = v.toNat :=
  BitVec.toNat_setWidth_of_le (by decide)

/-- The sum of Bnnn does not wrap (40_step_and_control.md R99). -/
theorem wide_add_addrOf_toNat (v : Byte) (nnn : Addr12) :
    (wide v + addrOf nnn).toNat = v.toNat + nnn.toNat := by
  have hv := v.isLt
  have hn := nnn.isLt
  rw [BitVec.toNat_add, wide_toNat, addrOf_toNat]
  exact Nat.mod_eq_of_lt (by omega)

/-- No step code moves `pc` on by more than 4 (R94). -/
theorem add_offset_toNat_le (a : Word) (c : StepCode) :
    (a + c.offset).toNat ≤ a.toNat + 4 := by
  have hc : c.offset.toNat ≤ 4 := by cases c <;> decide
  rw [BitVec.toNat_add]
  exact (Nat.mod_le _ _).trans (Nat.add_le_add_left hc _)

/-! ## What a handler can do to control flow and memory -/

/-- `m'` is `m` after a store inside the program window, the empty store included (20_memory.md R46). -/
def StoredInProg (m m' : Memory) : Prop :=
  ∃ (a : Nat) (bytes : List Byte), InProg a bytes.length ∧ m' = m.writeBytes a bytes

theorem StoredInProg.refl (m : Memory) : StoredInProg m m := ⟨0x200, [], by decide, rfl⟩

theorem StoredInProg.wf {m m' : Memory} (h : StoredInProg m m') (hm : m.wf = true) : m'.wf = true := by
  obtain ⟨a, bytes, hin, rfl⟩ := h
  exact wf_writeBytes bytes m a hin.2 hm

/-- `t` has the `IR`, `pc`, `sp` and call stack of `s`, and its memory up to a store in the program window. -/
structure KeepsControl (s t : State) : Prop where
  IR : t.IR = s.IR
  pc : t.pc = s.pc
  sp : t.sp = s.sp
  stack : t.stack = s.stack
  mem : StoredInProg s.mem t.mem

theorem storeAtI_keepsControl {s t : State} {bytes : List Byte} {c : StepCode}
    (h : storeAtI hardware s bytes = .done t c) : KeepsControl s t := by
  obtain ⟨-, hin, rfl⟩ := storeAtI_eq_done.1 h
  exact ⟨rfl, rfl, rfl, rfl, _, bytes, hin, rfl⟩

theorem handleLoadRegs_keepsControl {x : Reg} {s t : State} {c : StepCode}
    (h : handleLoadRegs hardware x s = .done t c) : KeepsControl s t := by
  obtain ⟨-, b, -, rfl⟩ := handleLoadRegs_eq_done.1 h
  rw [setRegsFrom_eq]
  exact ⟨rfl, rfl, rfl, rfl, .refl _⟩

theorem handleDrw_keepsControl {x y : Reg} {n : Nibble} {s t : State} {c : StepCode}
    (h : handleDrw hardware x y n s = .done t c) : KeepsControl s t := by
  obtain ⟨-, b, -, rfl⟩ := handleDrw_eq_done.1 h
  exact ⟨rfl, rfl, rfl, rfl, .refl _⟩

theorem handleLdVxK_keepsControl {x : Reg} {s t : State} {c : StepCode}
    (h : handleLdVxK x s = .done t c) : KeepsControl s t := by
  obtain ⟨-, -, rfl⟩ | ⟨k, -, -, rfl⟩ := handleLdVxK_eq_done.1 h
  · exact ⟨rfl, rfl, rfl, rfl, .refl _⟩
  · exact ⟨rfl, rfl, rfl, rfl, .refl _⟩

/-- All that a handler which is done can have done to `IR`, `pc`, the call stack and memory: nothing but a store,
a jump to a target of at most 0x10FE, a return, or a call. -/
theorem handle_done_cases {i : Instr} {s t : State} {c : StepCode} (h : handle hardware i s = .done t c) :
    KeepsControl s t ∨ (∃ a : Word, a.toNat ≤ 0x10FE ∧ c = .zero ∧ t = s.setPc a) ∨
      handleRet s = .done t c ∨ ∃ nnn, handleCall hardware nnn s = .done t c := by
  cases i with
  | jp nnn =>
    cases h
    have hn := nnn.isLt
    exact .inr (.inl ⟨addrOf nnn, by rw [addrOf_toNat]; omega, rfl, rfl⟩)
  | jpV0 nnn =>
    cases h
    have hn := nnn.isLt
    have hv := reg_toNat_lt s v0
    exact .inr (.inl ⟨wide (s.reg v0) + addrOf nnn, by rw [wide_add_addrOf_toNat]; omega, rfl, rfl⟩)
  | ret => exact .inr (.inr (.inl h))
  | call nnn => exact .inr (.inr (.inr ⟨nnn, h⟩))
  | ldB | storeRegs => exact .inl (storeAtI_keepsControl h)
  | loadRegs => exact .inl (handleLoadRegs_keepsControl h)
  | drw => exact .inl (handleDrw_keepsControl h)
  | ldVxK => exact .inl (handleLdVxK_keepsControl h)
  | cls | sys | seImm | sneImm | seReg | sneReg | ldImm | addImm | ldReg | orReg | andReg | xorReg | addReg | sub
  | shr | subn | shl | ldI | rnd | skp | sknp | ldVxDT | ldDTVx | ldSTVx | addI | ldF =>
    cases h
    exact .inl ⟨rfl, rfl, rfl, rfl, .refl _⟩

/-! ## `IR` after a step (10_state.md R21, D17) -/

/-- No handler writes `IR`. -/
theorem handle_done_IR {i : Instr} {s t : State} {c : StepCode} (h : handle hardware i s = .done t c) :
    t.IR = s.IR := by
  obtain hk | ⟨a, -, -, rfl⟩ | hr | ⟨nnn, hc⟩ := handle_done_cases h
  · exact hk.IR
  · rfl
  · obtain ⟨-, -, -, rfl⟩ := handleRet_eq_done.1 hr
    rfl
  · obtain ⟨-, -, rfl⟩ := handleCall_eq_done.1 hc
    rfl

theorem settle_handle_IR (i : Instr) (s : State) : (s.settle (handle hardware i s)).IR = s.IR := by
  cases h : handle hardware i s with
  | done t c => rw [settle_done, advance_IR, handle_done_IR h]
  | raised d => rfl

/-- Settles O58: the three things a step can be (`step_cases`), and no handler writes the `IR` latched before it. -/
theorem stepLatchesFetchedWord : Obligations.StepLatchesFetchedWord := by
  unfold Obligations.StepLatchesFetchedWord
  intro s t h
  obtain ⟨hf, rfl⟩ | ⟨w, i, hf, -, rfl⟩ | ⟨w, e, hf, -, rfl⟩ := step_cases h
  · simp [hf]
  · simp [hf, settle_handle_IR]
  · simp [hf]

/-! ## The invariant, update by update (10_state.md R27) -/

theorem fetchable_le_pcBound {a : Word} (h : Fetchable a) : a.toNat ≤ 0x10FE := h.2.trans (by decide)

/-- The invariant reads memory, `sp`, the call stack and `pc` alone; a new `pc` needs its bound only. -/
theorem inv_of_keeps {s t : State} (hs : Inv s) (hm : t.mem.wf = true) (hsp : t.sp = s.sp)
    (hst : t.stack = s.stack) (hpc : t.pc.toNat ≤ 0x10FE) : Inv t where
  memCanonical := hm
  spInRange := hsp ▸ hs.spInRange
  slotZero := hst ▸ hs.slotZero
  slots := hst ▸ hs.slots
  liveSlots := by rw [hsp, hst]; exact hs.liveSlots
  pcBound := hpc

theorem inv_setPc {s : State} (hs : Inv s) {a : Word} (ha : a.toNat ≤ 0x10FE) : Inv (s.setPc a) :=
  inv_of_keeps hs hs.memCanonical rfl rfl ha

theorem inv_latch {s : State} (hs : Inv s) (w : Word) : Inv (s.latch w) :=
  inv_of_keeps hs hs.memCanonical rfl rfl hs.pcBound

/-- Moving on from a fetched instruction stays far below the bound on `pc` (R94). -/
theorem inv_advance {s : State} (hs : Inv s) (hf : Fetchable s.pc) (c : StepCode) : Inv (s.advance c) := by
  have hle := add_offset_toNat_le s.pc c
  have hpc := hf.2
  exact inv_setPc hs (by omega)

theorem KeepsControl.inv {s t : State} (h : KeepsControl s t) (hs : Inv s) : Inv t :=
  inv_of_keeps hs (h.mem.wf hs.memCanonical) h.sp h.stack (h.pc ▸ hs.pcBound)

/-- A return takes `pc` from a live slot, which is fetchable, and leaves fewer slots live (R95). -/
theorem inv_handleRet {s t : State} {c : StepCode} (hs : Inv s) (h : handleRet s = .done t c) :
    c = .zero ∧ Inv t := by
  obtain ⟨hne, hc, hlt, rfl⟩ := handleRet_eq_done.1 h
  have hpos : 0 < s.sp.toNat := Nat.pos_of_ne_zero fun h0 => hne (BitVec.eq_of_toNat_eq h0)
  have hpred := sp_pred_toNat s hpos
  have hrange := hs.spInRange
  exact ⟨hc,
    { memCanonical := hs.memCanonical
      spInRange := by rw [setSp_sp, hpred]; omega
      slotZero := hs.slotZero
      slots := hs.slots
      liveSlots := fun j hj hle => hs.liveSlots j hj (by rw [setSp_sp, hpred] at hle; omega)
      pcBound := fetchable_le_pcBound (hs.liveSlots ⟨s.sp.toNat, hlt⟩ hpos le_rfl) }⟩

/-- A call pushes the address it was fetched from, above slot 0, and jumps to a 12-bit address (R98, D5). -/
theorem inv_handleCall {nnn : Addr12} {s t : State} {c : StepCode} (hs : Inv s) (hf : Fetchable s.pc)
    (h : handleCall hardware nnn s = .done t c) : c = .zero ∧ Inv t := by
  obtain ⟨hc, hlt, rfl⟩ := handleCall_eq_done.1 h
  have hn := nnn.isLt
  have hsucc := sp_succ_toNat s (by omega)
  have hslot : ∀ j : Fin 16, (s.stack.set (s.sp.toNat + 1) s.pc)[j] =
      if s.sp.toNat + 1 = j.val then s.pc else s.stack[j] := fun j => Vector.getElem_set ..
  exact ⟨hc,
    { memCanonical := hs.memCanonical
      spInRange := by dsimp only; omega
      slotZero := (hslot 0).trans hs.slotZero
      slots := fun j => by
        dsimp only
        rw [hslot]
        split
        · exact .inr hf
        · exact hs.slots j
      liveSlots := fun j hj hle => by
        dsimp only at hle ⊢
        rw [hslot]
        split
        · exact hf
        · exact hs.liveSlots j hj (by omega)
      pcBound := by dsimp only; rw [addrOf_toNat]; omega }⟩

/-! ## The invariant along steps and runs -/

/-- An instruction fetched from a fetchable `pc` keeps the invariant, whatever it is. -/
theorem inv_settle_handle {s : State} (hs : Inv s) (hf : Fetchable s.pc) (i : Instr) :
    Inv (s.settle (handle hardware i s)) := by
  cases h : handle hardware i s with
  | raised d => exact inv_advance hs hf .one
  | done t c =>
    rw [settle_done]
    obtain hk | ⟨a, ha, rfl, rfl⟩ | hr | ⟨nnn, hc⟩ := handle_done_cases h
    · exact inv_advance (hk.inv hs) (hk.pc ▸ hf) c
    · rw [advance_zero]
      exact inv_setPc hs ha
    · obtain ⟨rfl, ht⟩ := inv_handleRet hs hr
      rwa [advance_zero]
    · obtain ⟨rfl, ht⟩ := inv_handleCall hs hf hc
      rwa [advance_zero]

theorem step_keeps_inv {s t : State} (hs : Inv s) (h : step s = .next t) : Inv t := by
  obtain ⟨-, rfl⟩ | ⟨w, i, hf, -, rfl⟩ | ⟨w, e, hf, -, rfl⟩ := step_cases h
  · exact hs
  · exact inv_settle_handle (inv_latch hs w) (fetch_eq_some.1 hf).1 i
  · exact inv_advance (inv_latch hs w) (fetch_eq_some.1 hf).1 .one

/-- Settles O53: a stalled step changes nothing; a fetched one starts from a fetchable `pc`, so that what a CALL
pushes is fetchable and what moves on stays below the bound. -/
theorem stepKeepsInvariant : Obligations.StepKeepsInvariant := by
  unfold Obligations.StepKeepsInvariant
  exact fun s t hs h => step_keeps_inv hs h

theorem inv_tickDelay {s : State} (hs : Inv s) : Inv (tickDelay s) := by
  unfold tickDelay
  split
  · exact inv_of_keeps hs hs.memCanonical rfl rfl hs.pcBound
  · exact hs

theorem inv_tickSound {s : State} (hs : Inv s) : Inv (tickSound s) := by
  unfold tickSound
  split
  · exact inv_of_keeps hs hs.memCanonical rfl rfl hs.pcBound
  · exact hs

theorem apply_keeps_inv (s t : State) (e : RunEvent) (hs : Inv s) (h : e.apply s = .next t) : Inv t := by
  cases e with
  | step => exact step_keeps_inv hs h
  | tickDelay => cases h; exact inv_tickDelay hs
  | tickSound => cases h; exact inv_tickSound hs
  | keyPress | keyRelease => cases h; exact inv_of_keeps hs hs.memCanonical rfl rfl hs.pcBound
  | snapshot | displayUpdated => cases h; exact hs

/-- Settles O54, by induction on the run: each of its events keeps the invariant. -/
theorem everyRunKeepsInvariant : Obligations.EveryRunKeepsInvariant := by
  unfold Obligations.EveryRunKeepsInvariant
  exact runEvents_induction apply_keeps_inv

/-! ## The state after `PowerOn` and the launch states (10_state.md R25 to R27) -/

theorem reset_stack : ∀ j : Fin 16, State.reset.stack[j] = 0 := by decide

/-- Settles O51, field by field. -/
theorem resetStateHoldsPowerOnValues : Obligations.ResetStateHoldsPowerOnValues := by
  unfold Obligations.ResetStateHoldsPowerOnValues
  exact ⟨rfl, rfl, reset_stack, by decide, rfl, rfl, rfl, rfl, fun _ => rfl, fbByte_clearFb, by decide⟩

theorem inv_reset : Inv State.reset where
  memCanonical := wf_reset
  spInRange := by decide
  slotZero := reset_stack 0
  slots := fun j => .inl (reset_stack j)
  liveSlots := fun j hj hle => absurd (hj.trans hle) (by decide)
  pcBound := by decide

/-- The three stores of a load end at 0x69F at the latest (20_memory.md R58). -/
theorem wf_loadMemory {glyphs rom : List Byte} {m : Memory} (hg : glyphs.length = 80) (hr : rom.length ≤ 1184)
    (hm : m.wf = true) : (loadMemory glyphs rom m).wf = true := by
  have hzeros : 0x200 + (List.replicate hardware.progSize 0x00#8).length ≤ memEnd := by
    rw [List.length_replicate]; decide
  have himage : 0x200 + rom.length ≤ memEnd := by rw [memEnd_eq]; omega
  have hfont : 0 + glyphs.length ≤ memEnd := by rw [memEnd_eq]; omega
  exact wf_writeBytes _ _ _ hfont (wf_writeBytes _ _ _ himage (wf_writeBytes _ _ _ hzeros hm))

/-- Settles O52: a launch state is the reset state with a canonical memory. -/
theorem invariantHoldsAtResetAndLaunch : Obligations.InvariantHoldsAtResetAndLaunch := by
  unfold Obligations.InvariantHoldsAtResetAndLaunch
  refine ⟨inv_reset, fun glyphs rom hg hr => ?_⟩
  exact inv_of_keeps inv_reset (wf_loadMemory hg hr wf_reset) rfl rfl inv_reset.pcBound

/-! ## Which instruction changes which general register (10_state.md R12, R13) -/

/-- A register changes only through a handler that is done: a diagnostic and the move of `pc` keep them all. -/
theorem handle_done_of_reg_ne {i : Instr} {s t : State} {r : Reg} (h : exec i s = .next t)
    (hr : t.reg r ≠ s.reg r) : ∃ u c, handle hardware i s = .done u c ∧ u.reg r ≠ s.reg r := by
  rw [exec_eq_finish_handle] at h
  injection h with h
  subst h
  cases hh : handle hardware i s with
  | done u c => exact ⟨u, c, rfl, by simpa [hh] using hr⟩
  | raised d => simp [hh] at hr

theorem eq_of_setReg_reg_ne {s : State} {q r : Reg} {v : Byte} (h : (s.setReg q v).reg r ≠ s.reg r) : r = q := by
  by_contra hne
  exact h (setReg_reg_ne s v hne)

theorem eq_vf_or_eq_of_flagThenResult_reg_ne {s : State} {flag : Byte} {dst r : Reg} {result : State → Byte}
    (h : (s.flagThenResult flag dst result).reg r ≠ s.reg r) : r = vf ∨ r = dst := by
  by_contra hne
  obtain ⟨hvf, hdst⟩ := not_or.1 hne
  exact h (by rw [flagThenResult_reg, if_neg hdst, if_neg hvf])

theorem storeAtI_reg {s t : State} {bytes : List Byte} {c : StepCode} (h : storeAtI hardware s bytes = .done t c)
    (r : Reg) : t.reg r = s.reg r := by
  obtain ⟨-, -, rfl⟩ := storeAtI_eq_done.1 h
  rfl

theorem handleRet_reg {s t : State} {c : StepCode} (h : handleRet s = .done t c) (r : Reg) :
    t.reg r = s.reg r := by
  obtain ⟨-, -, -, rfl⟩ := handleRet_eq_done.1 h
  rfl

theorem handleCall_reg {nnn : Addr12} {s t : State} {c : StepCode} (h : handleCall hardware nnn s = .done t c)
    (r : Reg) : t.reg r = s.reg r := by
  obtain ⟨-, -, rfl⟩ := handleCall_eq_done.1 h
  rfl

theorem handleDrw_reg_ne {x y r : Reg} {n : Nibble} {s t : State} {c : StepCode}
    (h : handleDrw hardware x y n s = .done t c) (hr : t.reg r ≠ s.reg r) : r = vf := by
  obtain ⟨-, b, -, rfl⟩ := handleDrw_eq_done.1 h
  exact eq_of_setReg_reg_ne hr

theorem handleLdVxK_reg_ne {x r : Reg} {s t : State} {c : StepCode} (h : handleLdVxK x s = .done t c)
    (hr : t.reg r ≠ s.reg r) : r = x := by
  obtain ⟨-, -, rfl⟩ | ⟨k, -, -, rfl⟩ := handleLdVxK_eq_done.1 h
  · exact absurd rfl hr
  · exact eq_of_setReg_reg_ne hr

/-- A register load writes V0 to V`x` at most (43_index_memory.md R145). -/
theorem handleLoadRegs_reg_ne {x r : Reg} {s t : State} {c : StepCode}
    (h : handleLoadRegs hardware x s = .done t c) (hr : t.reg r ≠ s.reg r) : r.val ≤ x.val := by
  obtain ⟨-, b, hb, rfl⟩ := handleLoadRegs_eq_done.1 h
  have hlen := memRead_length hb
  by_contra hlt
  exact hr (by rw [setRegsFrom_reg, if_neg (by omega)])

/-- Settles O57, by the instruction: what its handler is done with differs from the state it started in at the
written registers only. -/
theorem generalRegistersChangeOnlyWhereNamed : Obligations.GeneralRegistersChangeOnlyWhereNamed := by
  unfold Obligations.GeneralRegistersChangeOnlyWhereNamed
  intro i s t r h hr
  obtain ⟨u, c, hu, hne⟩ := handle_done_of_reg_ne h hr
  cases i with
  | ldImm | addImm | ldReg | orReg | andReg | xorReg | rnd | ldVxDT =>
    cases hu
    exact eq_of_setReg_reg_ne hne
  | addReg | sub | shr | subn | shl =>
    cases hu
    exact eq_vf_or_eq_of_flagThenResult_reg_ne hne
  | drw => exact handleDrw_reg_ne hu hne
  | ldVxK => exact handleLdVxK_reg_ne hu hne
  | loadRegs => exact handleLoadRegs_reg_ne hu hne
  | ldB | storeRegs => exact hne (storeAtI_reg hu r)
  | ret => exact hne (handleRet_reg hu r)
  | call => exact hne (handleCall_reg hu r)
  | cls | sys | jp | seImm | sneImm | seReg | sneReg | ldI | jpV0 | skp | sknp | ldDTVx | ldSTVx | addI | ldF =>
    cases hu
    exact hne rfl

end Sys2Proof.Proofs

/-! # Proofs of the family 20_memory: the access primitives, the load of a program, the snapshot, and what no step
can store to (20_memory.md R41 to R46, R57, R58). -/

namespace Sys2Proof.Proofs

open Sys2Proof.Machine Sys2Proof.Laws

/-! ## The access primitives (20_memory.md R43 to R46) -/

/-- A span wholly inside one of the two windows, as numbers (20_memory.md R43). -/
theorem inOneWindow_iff {a n : Nat} :
    InInterp a n ∨ InProg a n ↔ a + n ≤ 0x200 ∨ (0x200 ≤ a ∧ a + n ≤ 0x6A0) :=
  or_congr inInterp_iff inProg_iff

theorem peek_writeBytes_inside (bytes : List Byte) (m : Memory) (a : Nat) {i : Nat} (hi : i < bytes.length) :
    (m.writeBytes a bytes).peek (a + i) = bytes.getD i 0 := by
  rw [peek_writeBytes, if_pos (by omega), Nat.add_sub_cancel_left]

/-- Settles O8: the word a fetch answers is put together from the two bytes, high byte first. -/
theorem fetchWordIsBigEndianInProgramWindow : Obligations.FetchWordIsBigEndianInProgramWindow := by
  unfold Obligations.FetchWordIsBigEndianInProgramWindow
  intro m a
  constructor
  · intro hin
    exact ⟨_, fetchWord_eq_some.2 ⟨inProg_two.2 hin, rfl⟩, wordOfBytes_toNat _ _⟩
  · intro hout
    rw [fetchWord_eq_none, inProg_two]
    omega

/-- Settles O13: what a read answers is the list of bytes of the span, and its window test is the one stated. -/
theorem memReadStaysInsideOneWindow : Obligations.MemReadStaysInsideOneWindow := by
  unfold Obligations.MemReadStaysInsideOneWindow
  intro m a n
  constructor
  · intro hin
    refine ⟨_, memRead_eq_some.2 ⟨inOneWindow_iff.2 hin, rfl⟩, by simp, fun i hi => ?_⟩
    rw [List.getElem?_map, List.getElem?_range hi, Option.map_some]
  · intro hout
    rwa [memRead_eq_none, inOneWindow_iff]

/-- Settles O14: a store that passes the window test is `Memory.writeBytes`, read back inside and outside the
span. -/
theorem memWriteStaysInsideProgramWindow : Obligations.MemWriteStaysInsideProgramWindow := by
  unfold Obligations.MemWriteStaysInsideProgramWindow
  intro m a bytes
  constructor
  · intro hin
    have hw : memWrite m a bytes = some (m.writeBytes a bytes) := memWrite_eq_some.2 ⟨hin, rfl⟩
    refine ⟨_, hw, fun i hi => ?_, fun b hb => peek_writeBytes_outside bytes m a b hb, memWrite_wf hw⟩
    simp [peek_writeBytes_inside bytes m a hi, hi]
  · exact memWrite_eq_none.2

/-! ## What no step can store to (20_memory.md R41, R46) -/

theorem StoredInProg.peek_outside {m m' : Memory} (h : StoredInProg m m') {b : Nat}
    (hb : b < 0x200 ∨ 0x6A0 ≤ b) : m'.peek b = m.peek b := by
  obtain ⟨a, bytes, hin, rfl⟩ := h
  obtain ⟨hlo, hhi⟩ := inProg_iff.1 hin
  exact peek_writeBytes_outside bytes m a b (by omega)

/-- Whatever a handler is done with, its memory is the old one up to a store in the program window. -/
theorem handle_done_storedInProg {i : Instr} {s t : State} {c : StepCode}
    (h : handle hardware i s = .done t c) : StoredInProg s.mem t.mem := by
  obtain hk | ⟨a, -, -, rfl⟩ | hr | ⟨nnn, hc⟩ := handle_done_cases h
  · exact hk.mem
  · exact .refl _
  · obtain ⟨-, -, -, rfl⟩ := handleRet_eq_done.1 hr
    exact .refl _
  · obtain ⟨-, -, rfl⟩ := handleCall_eq_done.1 hc
    exact .refl _

theorem settle_handle_storedInProg (i : Instr) (s : State) :
    StoredInProg s.mem (s.settle (handle hardware i s)).mem := by
  cases h : handle hardware i s with
  | done t c =>
    rw [settle_done, advance_mem]
    exact handle_done_storedInProg h
  | raised d => exact .refl _

/-- A step changes memory by a store in the program window or not at all. -/
theorem step_storedInProg {s t : State} (h : step s = .next t) : StoredInProg s.mem t.mem := by
  obtain ⟨-, rfl⟩ | ⟨w, i, -, -, rfl⟩ | ⟨w, e, -, -, rfl⟩ := step_cases h
  · exact .refl _
  · exact settle_handle_storedInProg i (s.latch w)
  · exact .refl _

/-- Settles O55: a step stores inside the program window alone. -/
theorem stepKeepsInterpreterWindow : Obligations.StepKeepsInterpreterWindow := by
  unfold Obligations.StepKeepsInterpreterWindow
  exact fun s t h a ha => (step_storedInProg h).peek_outside ha

/-! ## The load of a program (20_memory.md R58) -/

/-- Every byte after a load that fits: the font, the image with zeros after it, and the rest as it was. -/
theorem loadMemory_peek {glyphs rom : List Byte} (m : Memory) (a : Nat) (hg : glyphs.length = 80)
    (hr : rom.length ≤ 1184) :
    (loadMemory glyphs rom m).peek a =
      if a < 80 then glyphs.getD a 0
      else if 0x200 ≤ a ∧ a < 0x6A0 then rom.getD (a - 0x200) 0 else m.peek a := by
  have hzeros : (List.replicate (0x4A0 : Nat) (0x00#8 : Byte)).length = 0x4A0 := List.length_replicate
  show (((m.writeBytes 0x200 (List.replicate 0x4A0 0x00#8)).writeBytes 0x200 rom).writeBytes 0 glyphs).peek a = _
  rw [peek_writeBytes, peek_writeBytes, peek_writeBytes, hzeros]
  by_cases hfont : a < 80
  · rw [if_pos (by omega), if_pos hfont, Nat.sub_zero]
  rw [if_neg (by omega), if_neg hfont]
  by_cases hrom : 0x200 ≤ a ∧ a < 0x200 + rom.length
  · rw [if_pos hrom, if_pos (by omega)]
  rw [if_neg hrom]
  by_cases hprog : 0x200 ≤ a ∧ a < 0x6A0
  · rw [if_pos hprog, if_pos hprog, List.getD_eq_default rom 0 (by omega), List.getD_replicate _ (by omega)]
    rfl
  · rw [if_neg hprog, if_neg hprog]

/-- A new memory changes nothing but memory. -/
theorem frame_setMem (s : State) (m : Memory) : Frame [] [.memory] s (s.setMem m) where
  registers := fun _ _ => rfl
  others := fun p hp => by
    cases p with
    | memory => exact absurd (List.mem_singleton_self _) hp
    | callStack => exact ⟨rfl, fun _ => rfl⟩
    | display => exact fun _ _ => rfl
    | keys => exact fun _ => rfl
    | index | delayTimer | soundTimer | lastWord | randomDraws => rfl

theorem loadProgramWith_of_le {glyphs rom : List Byte} (s : State) (h : rom.length ≤ 1184) :
    loadProgramWith glyphs rom s = .next (s.setMem (loadMemory glyphs rom s.mem)) :=
  if_neg (Nat.not_lt.2 h)

theorem loadProgramWith_of_gt {glyphs rom : List Byte} (s : State) (h : 1184 < rom.length) :
    loadProgramWith glyphs rom s = .fault .programTooLarge :=
  if_pos h

/-- Settles O49: the load sets memory alone, and `loadMemory_peek` says what every byte of it then is. -/
theorem loadPlacesImageZerosAndFont : Obligations.LoadPlacesImageZerosAndFont := by
  unfold Obligations.LoadPlacesImageZerosAndFont
  intro glyphs rom s hg
  refine ⟨fun hr => ?_, loadProgramWith_of_gt s⟩
  have hpeek := fun a => loadMemory_peek s.mem a hg hr
  refine ⟨_, loadProgramWith_of_le s hr, rfl, frame_setMem _ _, fun i hi => ?_, fun i hi => ?_, fun a ha hout => ?_⟩
  · rw [setMem_mem, hpeek, if_neg (by omega), if_pos (by omega), Nat.add_sub_cancel_left]
  · have hlt : i < glyphs.length := by omega
    rw [setMem_mem, hpeek, if_pos hi]
    simp [hlt]
  · rw [setMem_mem, hpeek, if_neg (by omega), if_neg (by omega)]

/-! ## The queries (20_memory.md R57, 60_exceptions.md R186) -/

/-- The snapshot is the framebuffer as one vector of 32 * 8 bytes. -/
theorem snapshot_eq_flatten (s : State) : snapshot s = s.fb.flatten.toList := by
  simp [snapshot, Vector.flatten, Vector.toList, List.flatMap, Function.comp_def]

theorem snapshot_length (s : State) : (snapshot s).length = 256 := by
  rw [snapshot_eq_flatten, Vector.length_toList, fbRows_eq, fbRowBytes_eq]

theorem snapshot_getElem? (s : State) {r b : Nat} (hr : r < 32) (hb : b < 8) :
    (snapshot s)[8 * r + b]? = some (fbByte s.fb r b) := by
  have hlt : 8 * r + b < 32 * 8 := by omega
  have hdiv : (8 * r + b) / 8 = r % 32 := by omega
  have hmod : (8 * r + b) % 8 = b % 8 := by omega
  rw [snapshot_eq_flatten, Vector.getElem?_toList, Vector.getElem?_flatten, dif_pos hlt]
  simp only [fbByte, rowByte, fbRow, hdiv, hmod]

/-- The top nibble as a number. -/
theorem fieldT_toNat (w : Word) : (fieldT w).toNat = w.toNat / 4096 := by
  have hw := w.isLt
  rw [fieldT, BitVec.extractLsb'_toNat, Nat.shiftRight_eq_div_pow]
  omega

theorem displayUpdated_iff (s : State) : displayUpdated s = true ↔ s.IR.toNat / 4096 = 0xD := by
  rw [displayUpdated, beq_iff_eq, ← BitVec.toNat_inj, fieldT_toNat]
  rfl

/-- Settles O48: the pixel of column `c` is read from byte `c / 8` of its row. -/
theorem queriesReadFramebufferAndLastWord : Obligations.QueriesReadFramebufferAndLastWord := by
  unfold Obligations.QueriesReadFramebufferAndLastWord
  intro s
  refine ⟨snapshot_length s, fun r b => snapshot_getElem? s, fun c r hc hr => ?_, displayUpdated_iff s,
    rfl, rfl, rfl, rfl⟩
  exact ⟨fbByte s.fb r (c / 8), snapshot_getElem? s hr (by omega), rfl⟩

end Sys2Proof.Proofs

/-! # Proofs of the family 30_encoding: the fields of a word, the decoder against the encoder and against the opcode
table, and the step on a word that is no instruction (30_encoding.md R71 to R77). -/

namespace Sys2Proof.Proofs

open Sys2Proof.Machine Sys2Proof.Laws

/-! ## The fields as numbers (30_encoding.md R71) -/

theorem fieldX_val (w : Word) : (fieldX w).val = w.toNat / 256 % 16 := by
  show (fieldXBits w).toNat = _
  rw [fieldXBits, BitVec.extractLsb'_toNat, Nat.shiftRight_eq_div_pow]

theorem fieldY_val (w : Word) : (fieldY w).val = w.toNat / 16 % 16 := by
  show (fieldYBits w).toNat = _
  rw [fieldYBits, BitVec.extractLsb'_toNat, Nat.shiftRight_eq_div_pow]

theorem fieldN_toNat (w : Word) : (fieldN w).toNat = w.toNat % 16 := BitVec.extractLsb'_toNat ..

theorem fieldKK_toNat (w : Word) : (fieldKK w).toNat = w.toNat % 256 := BitVec.extractLsb'_toNat ..

theorem fieldNNN_toNat (w : Word) : (fieldNNN w).toNat = w.toNat % 4096 := BitVec.extractLsb'_toNat ..

/-- Settles O2: with every field as a number, the rest is arithmetic on hexadecimal digits. -/
theorem fieldsDecomposeEveryWord : Obligations.FieldsDecomposeEveryWord := by
  unfold Obligations.FieldsDecomposeEveryWord
  intro w
  rw [fieldT_toNat, fieldX_val, fieldY_val, fieldN_toNat, fieldKK_toNat, fieldNNN_toNat]
  omega

/-! ## Which sub-decoder a word goes to (30_encoding.md R75) -/

theorem decode_of_fieldT_0 {w : Word} (h : fieldT w = 0x0#4) : decode w = .ok (decode0 w) := if_pos h

theorem decode_of_fieldT_8 {w : Word} (h : fieldT w = 0x8#4) : decode w = decode8 w := by
  simp [decode, decodeHigh, h]

theorem decode_of_fieldT_E {w : Word} (h : fieldT w = 0xE#4) : decode w = decodeE w := by
  simp [decode, decodeHigh, h]

theorem decode_of_fieldT_F {w : Word} (h : fieldT w = 0xF#4) : decode w = decodeF w := by
  simp [decode, decodeHigh, h]

/-! ## `SYS` words (30_encoding.md R75, R76) -/

theorem wordA_inj {t : Nibble} {a b : Addr12} : wordA t a = wordA t b ↔ a = b :=
  ⟨fun h => by rw [← fieldNNN_wordA t a, h, fieldNNN_wordA], congrArg _⟩

/-- A `SYS` operand is one whose word is neither 00E0 nor 00EE. -/
theorem isSysField_iff {nnn : Addr12} :
    Instr.isSysField nnn = true ↔ wordA 0x0#4 nnn ≠ 0x00E0#16 ∧ wordA 0x0#4 nnn ≠ 0x00EE#16 := by
  show _ ↔ wordA 0x0#4 nnn ≠ wordA 0x0#4 0x0E0#12 ∧ wordA 0x0#4 nnn ≠ wordA 0x0#4 0x0EE#12
  simp [Instr.isSysField, wordA_inj]

theorem decode0_wordA {nnn : Addr12} (h : Instr.isSysField nnn = true) :
    decode0 (wordA 0x0#4 nnn) = .sys nnn := by
  obtain ⟨hcls, hret⟩ := isSysField_iff.1 h
  rw [decode0, if_neg hcls, if_neg hret, fieldNNN_wordA]

/-! ## Decoding what was encoded (30_encoding.md R72, R74, R75) -/

theorem decode_encode {i : Instr} (hi : i.wellFormed = true) : decode (encode i) = .ok i := by
  cases i with
  | cls | ret => decide
  | sys nnn => rw [encode, decode_of_fieldT_0 (fieldT_wordA ..), decode0_wordA hi]
  | jp | call | seImm | sneImm | seReg | ldImm | addImm => simp [encode, decode]
  | ldReg | orReg | andReg | xorReg | addReg | sub | shr | subn | shl =>
    rw [encode, decode_of_fieldT_8 (fieldT_wordXYN ..)]
    simp [decode8]
  | sneReg | ldI | jpV0 | rnd | drw => simp [encode, decode, decodeHigh]
  | skp | sknp =>
    rw [encode, decode_of_fieldT_E (fieldT_wordXK ..)]
    simp [decodeE]
  | ldVxDT | ldVxK | ldDTVx | ldSTVx | addI | ldF | ldB | storeRegs | loadRegs =>
    rw [encode, decode_of_fieldT_F (fieldT_wordXK ..)]
    simp [decodeF]

theorem decodeBytes_encodeBytes (i : Instr) (rest : List Byte) :
    decodeBytes (encodeBytes i ++ rest) = (decode (encode i)).map fun j => (j, rest) := by
  show (decode (wordOfBytes (hiByte (encode i)) (loByte (encode i)))).map (fun j => (j, rest)) = _
  rw [wordOfBytes_hiByte_loByte]

/-- Settles O3: the two bytes make up the word again, and the word decodes by its layout. -/
theorem decodeOfEncodeIsIdentity : Obligations.DecodeOfEncodeIsIdentity := by
  unfold Obligations.DecodeOfEncodeIsIdentity
  intro i hi
  have hword := decode_encode hi
  exact ⟨hword, fun rest => by rw [decodeBytes_encodeBytes, hword]; rfl⟩

/-! ## All that decoding can answer (30_encoding.md R75, R77) -/

/-- The low nibbles of family 8 (30_encoding.md R74). -/
def lowNibbles8 : List Nibble := [0x0, 0x1, 0x2, 0x3, 0x4, 0x5, 0x6, 0x7, 0xE]

/-- The low bytes of family E (30_encoding.md R74). -/
def lowBytesE : List Byte := [0x9E, 0xA1]

/-- The low bytes of family F (30_encoding.md R74). -/
def lowBytesF : List Byte := [0x07, 0x0A, 0x15, 0x18, 0x1E, 0x29, 0x33, 0x55, 0x65]

/-- `w` has the fields of a row of the opcode table: the families 5, 8, 9, E and F take only some low nibbles or low
bytes (30_encoding.md R77, D15 for family 9). -/
def FieldsInTable (w : Word) : Prop :=
  (fieldT w = 0x5#4 ∨ fieldT w = 0x9#4 → fieldN w = 0x0#4) ∧ (fieldT w = 0x8#4 → fieldN w ∈ lowNibbles8) ∧
    (fieldT w = 0xE#4 → fieldKK w ∈ lowBytesE) ∧ (fieldT w = 0xF#4 → fieldKK w ∈ lowBytesF)

/-- The answer is a well-formed instruction whose word is `w`, or it rejects `w`, whose fields no row has. -/
def AnswersWord (w : Word) : Except Reject Instr → Prop
  | .ok i => i.wellFormed = true ∧ encode i = w
  | .error e => e = .invalidOpcode w ∧ ¬FieldsInTable w

theorem wordA_of_fields {w : Word} {t : Nibble} (ht : fieldT w = t) : wordA t (fieldNNN w) = w :=
  ht ▸ wordA_fields w

theorem wordXK_of_fields {w : Word} {t : Nibble} {kk : Byte} (ht : fieldT w = t) (hk : fieldKK w = kk) :
    wordXK t (fieldX w) kk = w :=
  ht ▸ hk ▸ wordXK_fields w

theorem wordXYN_of_fields {w : Word} {t n : Nibble} (ht : fieldT w = t) (hn : fieldN w = n) :
    wordXYN t (fieldX w) (fieldY w) n = w :=
  ht ▸ hn ▸ wordXYN_fields w

theorem decode0_answersWord {w : Word} (ht : fieldT w = 0x0#4) : AnswersWord w (.ok (decode0 w)) := by
  have hw := wordA_of_fields ht
  unfold decode0
  split_ifs with hcls hret
  · exact ⟨rfl, hcls.symm⟩
  · exact ⟨rfl, hret.symm⟩
  · exact ⟨isSysField_iff.2 (by rw [hw]; exact ⟨hcls, hret⟩), hw⟩

theorem decode8_answersWord {w : Word} (ht : fieldT w = 0x8#4) : AnswersWord w (decode8 w) := by
  unfold decode8
  split_ifs
  case neg =>
    have hout : fieldN w ∉ lowNibbles8 := by simp [lowNibbles8, *]
    exact ⟨rfl, fun ⟨_, h8, _⟩ => hout (h8 ht)⟩
  all_goals exact ⟨rfl, wordXYN_of_fields ht ‹_›⟩

theorem decodeE_answersWord {w : Word} (ht : fieldT w = 0xE#4) : AnswersWord w (decodeE w) := by
  unfold decodeE
  split_ifs
  case neg =>
    have hout : fieldKK w ∉ lowBytesE := by simp [lowBytesE, *]
    exact ⟨rfl, fun ⟨_, _, hE, _⟩ => hout (hE ht)⟩
  all_goals exact ⟨rfl, wordXK_of_fields ht ‹_›⟩

theorem decodeF_answersWord {w : Word} (ht : fieldT w = 0xF#4) : AnswersWord w (decodeF w) := by
  unfold decodeF
  split_ifs
  case neg =>
    have hout : fieldKK w ∉ lowBytesF := by simp [lowBytesF, *]
    exact ⟨rfl, fun ⟨_, _, _, hF⟩ => hout (hF ht)⟩
  all_goals exact ⟨rfl, wordXK_of_fields ht ‹_›⟩

/-- Families 9 to F, once family 8 and the families below it are set aside. -/
theorem decodeHigh_answersWord {w : Word} (ht : 8 ≤ (fieldT w).toNat) : AnswersWord w (decodeHigh w) := by
  unfold decodeHigh
  split_ifs with h8 h9 hn hA hB hC hD hE
  · exact decode8_answersWord h8
  · exact ⟨rfl, wordXYN_of_fields h9 hn⟩
  · exact ⟨rfl, fun ⟨hn0, _⟩ => hn (hn0 (.inr h9))⟩
  · exact ⟨rfl, wordA_of_fields hA⟩
  · exact ⟨rfl, wordA_of_fields hB⟩
  · exact ⟨rfl, wordXK_of_fields hC rfl⟩
  · exact ⟨rfl, wordXYN_of_fields hD rfl⟩
  · exact decodeE_answersWord hE
  · exact decodeF_answersWord (by bv_omega)

/-- What decoding a word answers, whichever branch it takes. -/
theorem decode_answersWord (w : Word) : AnswersWord w (decode w) := by
  unfold decode
  split_ifs with h0 h1 h2 h3 h4 h5 hn h6 h7
  · exact decode0_answersWord h0
  · exact ⟨rfl, wordA_of_fields h1⟩
  · exact ⟨rfl, wordA_of_fields h2⟩
  · exact ⟨rfl, wordXK_of_fields h3 rfl⟩
  · exact ⟨rfl, wordXK_of_fields h4 rfl⟩
  · exact ⟨rfl, wordXYN_of_fields h5 hn⟩
  · exact ⟨rfl, fun ⟨hn0, _⟩ => hn (hn0 (.inl h5))⟩
  · exact ⟨rfl, wordXK_of_fields h6 rfl⟩
  · exact ⟨rfl, wordXK_of_fields h7 rfl⟩
  · exact decodeHigh_answersWord (by bv_omega)

theorem encode_of_decode {w : Word} {i : Instr} (h : decode w = .ok i) : i.wellFormed = true ∧ encode i = w := by
  have hw := decode_answersWord w
  rwa [h] at hw

/-- Settles O4: the branch that answers `i` fixes the fields that `encode` puts together. -/
theorem encodeOfDecodeIsIdentity : Obligations.EncodeOfDecodeIsIdentity := by
  unfold Obligations.EncodeOfDecodeIsIdentity
  exact fun w i h => encode_of_decode h

/-! ## The opcode table (30_encoding.md R74) -/

theorem selects_iff {r : OpcodeRow} {w : Word} : r.selects w = true ↔ w &&& r.mask = r.pattern := beq_iff_eq

/-- The fixed bits of a row contradict those of every row after it, except that the two whole words 00E0 and 00EE
stand before the row of the other family 0 words. -/
theorem opcodeRows_pairwise :
    opcodeRows.Pairwise fun a r => a.pattern &&& r.mask ≠ r.pattern &&& a.mask ∨
      (r.pattern = 0x0000#16 ∧ a.mask = 0xFFFF#16 ∧ (a.pattern = 0x00E0#16 ∨ a.pattern = 0x00EE#16)) := by
  decide

theorem row_mem_opcodeRows (i : Instr) : i.row ∈ opcodeRows := by
  cases i <;> exact List.elem_iff.1 rfl

open EncodedInRow in
/-- The laws of Laws/PerInstr.lean, for every instruction at once. -/
theorem row_selects_encode : (i : Instr) → i.row.selects (encode i) = true
  | .cls => cls | .ret => ret | .sys _ => sys _ | .jp _ => jp _ | .call _ => call _
  | .seImm _ _ => seImm _ _ | .sneImm _ _ => sneImm _ _ | .seReg _ _ => seReg _ _ | .ldImm _ _ => ldImm _ _
  | .addImm _ _ => addImm _ _ | .ldReg _ _ => ldReg _ _ | .orReg _ _ => orReg _ _ | .andReg _ _ => andReg _ _
  | .xorReg _ _ => xorReg _ _ | .addReg _ _ => addReg _ _ | .sub _ _ => sub _ _ | .shr _ _ => shr _ _
  | .subn _ _ => subn _ _ | .shl _ _ => shl _ _ | .sneReg _ _ => sneReg _ _ | .ldI _ => ldI _
  | .jpV0 _ => jpV0 _ | .rnd _ _ => rnd _ _ | .drw _ _ _ => drw _ _ _ | .skp _ => skp _ | .sknp _ => sknp _
  | .ldVxDT _ => ldVxDT _ | .ldVxK _ => ldVxK _ | .ldDTVx _ => ldDTVx _ | .ldSTVx _ => ldSTVx _
  | .addI _ => addI _ | .ldF _ => ldF _ | .ldB _ => ldB _ | .storeRegs _ => storeRegs _
  | .loadRegs _ => loadRegs _

theorem row_selects_of_decode {w : Word} {i : Instr} (h : decode w = .ok i) : i.row.selects w = true :=
  (encode_of_decode h).2 ▸ row_selects_encode i

/-- The words 00E0 and 00EE do not decode to `SYS`, the instruction of the row with pattern 0000. -/
theorem row_pattern_ne_zero_of_decode {w : Word} {i : Instr} (h : decode w = .ok i)
    (hw : w = 0x00E0#16 ∨ w = 0x00EE#16) : i.row.pattern ≠ 0x0000#16 := by
  obtain rfl | rfl := hw <;> cases h <;> decide

/-- A word selects no row that stands before the row of the instruction it decodes to. -/
theorem not_selects_of_before_row {w : Word} {i : Instr} (h : decode w = .ok i) {before after : List OpcodeRow}
    (htable : opcodeRows = before ++ i.row :: after) {a : OpcodeRow} (ha : a ∈ before) : ¬a.selects w = true := by
  intro hsel
  have haw := selects_iff.1 hsel
  have hiw := selects_iff.1 (row_selects_of_decode h)
  obtain hdiff | ⟨hzero, hmask, hword⟩ :=
    (List.pairwise_append.1 (htable ▸ opcodeRows_pairwise)).2.2 a ha i.row List.mem_cons_self
  · exact hdiff (by rw [← haw, ← hiw, BitVec.and_assoc, BitVec.and_comm a.mask, BitVec.and_assoc])
  · have hw : w = a.pattern := by rw [← haw, hmask]; exact BitVec.and_allOnes.symm
    exact row_pattern_ne_zero_of_decode h (hw ▸ hword) hzero

theorem find?_row_of_decode {w : Word} {i : Instr} (h : decode w = .ok i) :
    opcodeRows.find? (fun r => r.selects w) = some i.row := by
  obtain ⟨before, after, htable⟩ := List.append_of_mem (row_mem_opcodeRows i)
  exact List.find?_eq_some_iff_append.2 ⟨row_selects_of_decode h, before, after, htable,
    fun a ha => by simpa using not_selects_of_before_row h htable ha⟩

/-- A field that the fixed bits of a row take in reads in a selecting word as in the row's pattern. -/
theorem extractLsb'_of_selects {r : OpcodeRow} {w : Word} {start len : Nat} (h : r.selects w = true)
    (hm : r.mask.extractLsb' start len = BitVec.allOnes len) :
    w.extractLsb' start len = r.pattern.extractLsb' start len := by
  rw [← selects_iff.1 h, BitVec.extractLsb'_and, hm, BitVec.and_allOnes]

/-- The fixed bits of a row take in its top nibble, and the low nibble or byte by which its family decodes. -/
theorem opcodeRows_fields : ∀ r ∈ opcodeRows, fieldT r.mask = BitVec.allOnes 4 ∧
    (fieldT r.pattern ∈ [0x5#4, 0x8#4, 0x9#4] → fieldN r.mask = BitVec.allOnes 4) ∧
    (fieldT r.pattern ∈ [0xE#4, 0xF#4] → fieldKK r.mask = BitVec.allOnes 8) ∧ FieldsInTable r.pattern := by
  unfold FieldsInTable
  decide

theorem fieldsInTable_of_selects {r : OpcodeRow} {w : Word} (hr : r ∈ opcodeRows) (h : r.selects w = true) :
    FieldsInTable w := by
  obtain ⟨hmT, hmN, hmKK, h59, h8, hE, hF⟩ := opcodeRows_fields r hr
  have hT : fieldT w = fieldT r.pattern := extractLsb'_of_selects h hmT
  have hN (ht : fieldT r.pattern ∈ [0x5#4, 0x8#4, 0x9#4]) : fieldN w = fieldN r.pattern :=
    extractLsb'_of_selects h (hmN ht)
  have hKK (ht : fieldT r.pattern ∈ [0xE#4, 0xF#4]) : fieldKK w = fieldKK r.pattern :=
    extractLsb'_of_selects h (hmKK ht)
  unfold FieldsInTable
  rw [hT]
  refine ⟨fun ht => ?_, fun ht => ?_, fun ht => ?_, fun ht => ?_⟩
  · rw [hN (by obtain ht | ht := ht <;> simp [ht]), h59 ht]
  · exact hN (by simp [ht]) ▸ h8 ht
  · exact hKK (by simp [ht]) ▸ hE ht
  · exact hKK (by simp [ht]) ▸ hF ht

/-- A rejected word selects no row: the fields of a selecting word are in the table. -/
theorem of_decode_error {w : Word} {e : Reject} (h : decode w = .error e) :
    e = .invalidOpcode w ∧ ∀ r ∈ opcodeRows, ¬r.selects w = true := by
  have hw := decode_answersWord w
  rw [h] at hw
  obtain ⟨he, hout⟩ := hw
  exact ⟨he, fun r hr hsel => hout (fieldsInTable_of_selects hr hsel)⟩

/-- A word that selects no row is rejected: the word of an instruction selects the instruction's row. -/
theorem decode_of_selects_none {w : Word} (h : ∀ r ∈ opcodeRows, ¬r.selects w = true) :
    decode w = .error (.invalidOpcode w) := by
  cases hd : decode w with
  | ok i => exact absurd (row_selects_of_decode hd) (h i.row (row_mem_opcodeRows i))
  | error e => rw [(of_decode_error hd).1]

/-- Settles O5: an instruction's own row is the first that its words select, and a rejected word selects none. -/
theorem decodeTakesFirstSelectedRow : Obligations.DecodeTakesFirstSelectedRow := by
  unfold Obligations.DecodeTakesFirstSelectedRow
  intro w
  cases hd : decode w with
  | ok i =>
    rw [find?_row_of_decode hd]
    exact ⟨i, rfl, rfl⟩
  | error e =>
    obtain ⟨rfl, hnone⟩ := of_decode_error hd
    rw [List.find?_eq_none.2 hnone]

/-! ## The step on an invalid word (30_encoding.md R77, 40_step_and_control.md R93) -/

/-- Latching a word changes `IR` alone. -/
theorem frame_latch (s : State) (w : Word) : Frame [] [.lastWord] s (s.latch w) where
  registers := fun _ _ => rfl
  others := fun p hp => by
    cases p with
    | lastWord => exact absurd (List.mem_singleton_self _) hp
    | callStack => exact ⟨rfl, fun _ => rfl⟩
    | memory => exact fun _ => rfl
    | display => exact fun _ _ => rfl
    | keys => exact fun _ => rfl
    | index | delayTimer | soundTimer | randomDraws => rfl

/-- Moving `pc` on changes nothing that a frame speaks of. -/
theorem frame_advance {regs : List Reg} {parts : List Part} {s t : State} (h : Frame regs parts s t) (c : StepCode) :
    Frame regs parts s (t.advance c) where
  registers := h.registers
  others := fun p hp => by cases p <;> exact h.others _ hp

theorem stepReport_of_fetch_some {s : State} {w : Word} (h : s.fetch = some w) :
    stepReport s = .executed (handleWord hardware s.nextRandom w (s.latch w)).diag := by
  have hf : fetchWordOf hardware s.mem s.pc.toNat = some w := h
  rw [stepReport, stepReportOf, reportOf, hf]

theorem handleWord_of_error {p : Config.Params} {r : Byte} {w : Word} {e : Reject} {s : State}
    (h : decode w = .error e) : handleWord p r w s = .raised .invalidOpcode := by
  rw [handleWord, h]

/-- Settles O9: a word of no row is one the decoder rejects, so that the step raises `InvalidOpcode`. -/
theorem invalidWordIsSteppedOver : Obligations.InvalidWordIsSteppedOver := by
  unfold Obligations.InvalidWordIsSteppedOver
  intro s w hf hnone
  have hd : decode w = .error (.invalidOpcode w) :=
    decode_of_selects_none fun r hr hsel => hnone r hr (selects_iff.1 hsel)
  constructor
  · rw [stepReport_of_fetch_some hf, handleWord_of_error hd, diag_raised]
  · refine ⟨(s.latch w).advance .one, ?_, rfl, rfl, frame_advance (frame_latch s w) .one⟩
    rw [step_of_fetch_some hf, executeWord_of_error hd]

/-! ## Sample words (95_test_vectors.md group D) -/

/-- Settles O1: the decoder run on each of the words. -/
theorem sampleWordsDecode : Obligations.SampleWordsDecode := by
  unfold Obligations.SampleWordsDecode
  decide

end Sys2Proof.Proofs

/-! # Proofs of the family 40_step_and_control: the step protocol, the stall, the move past a diagnostic, and the
control transfers (40_step_and_control.md R90 to R100). -/

namespace Sys2Proof.Proofs

open Sys2Proof.Machine Sys2Proof.Laws

/-! ## Frames of control transfer -/

/-- A new call stack with a new pointer and a new `pc` change no other part. -/
theorem frame_callStack (s : State) (stack : Vector (BitVec Config.pclen) Config.stackSlots) (sp : Byte) (pc : Word) :
    Frame [] [.callStack] s { s with stack := stack, sp := sp, pc := pc } where
  registers := fun _ _ => rfl
  others := fun p hp => by
    cases p with
    | callStack => exact absurd (List.mem_singleton_self _) hp
    | memory => exact fun _ => rfl
    | display => exact fun _ _ => rfl
    | keys => exact fun _ => rfl
    | index | delayTimer | soundTimer | lastWord | randomDraws => rfl

/-- A new `pc` changes nothing that a frame speaks of. -/
theorem frame_setPc (s : State) (a : Word) : Frame [] [] s (s.setPc a) where
  registers := fun _ _ => rfl
  others := fun p _ => by
    by_cases hp : p = .callStack
    · subst hp
      exact ⟨rfl, fun _ => rfl⟩
    · exact (frame_callStack s s.stack s.sp a).others p (mt List.mem_singleton.1 hp)

/-! ## Instructions that raise a diagnostic, and those that do not (R92, R93) -/

/-- Settles O12: the diagnostic discards whatever the handler did, so that moving `pc` on is the whole effect. -/
theorem diagnosticSkipsInstruction : Obligations.DiagnosticSkipsInstruction := by
  unfold Obligations.DiagnosticSkipsInstruction
  intro i s d h
  exact ⟨s.advance .one, exec_of_raisedBy h, rfl, frame_setPc s _⟩

theorem raisedBy_of_done {i : Instr} {s t : State} {c : StepCode} (h : handle hardware i s = .done t c) :
    raisedBy i s = none := by
  rw [raisedBy, h, diag_done]

/-- An instruction that answers step code 0 has set `pc` itself (R92). -/
theorem exec_of_done_zero {i : Instr} {s t : State} (h : handle hardware i s = .done t .zero) :
    exec i s = .next t := by
  rw [exec_eq_finish_handle, h, settle_done, advance_zero]

/-! ## The step (R90, R91) -/

theorem decodeBytes_pair {hi lo : Byte} {i : Instr} :
    decodeBytes [hi, lo] = .ok (i, []) ↔ decode (wordOfBytes hi lo) = .ok i := by
  show (decode (wordOfBytes hi lo)).map (fun j => (j, [])) = _ ↔ _
  cases decode (wordOfBytes hi lo) <;> simp [Except.map]

theorem handleWord_of_ok {p : Config.Params} {r : Byte} {w : Word} {i : Instr} {s : State}
    (h : decode w = .ok i) : handleWord p r w s = handleWith p r i s := by
  rw [handleWord, h]

/-- What a step does and reports when the fetched word is an instruction. -/
theorem step_of_decode_ok {s : State} {w : Word} {i : Instr} (hf : s.fetch = some w) (hd : decode w = .ok i) :
    step s = exec i (s.latch w) ∧ stepReport s = .executed (raisedBy i (s.latch w)) := by
  constructor
  · rw [step_of_fetch_some hf, executeWord_of_ok hd]
  · rw [stepReport_of_fetch_some hf, handleWord_of_ok hd]
    rfl

/-- Settles O6: the latched state is the one that differs from `s` in `IR` alone. -/
theorem stepRunsDecodedInstruction : Obligations.StepRunsDecodedInstruction := by
  unfold Obligations.StepRunsDecodedInstruction
  intro s i hpc hbytes
  obtain ⟨hstep, hreport⟩ := step_of_decode_ok (fetch_eq_some.2 ⟨hpc, rfl⟩) (decodeBytes_pair.1 hbytes)
  exact ⟨s.latch _, wordOfBytes_toNat _ _, rfl, frame_latch s _, hstep, hreport⟩

theorem fetch_eq_none_iff_outside {s : State} : s.fetch = none ↔ s.pc.toNat < 0x200 ∨ 0x69E < s.pc.toNat := by
  rw [fetch_eq_none]
  omega

theorem stepReport_eq_stalled {s : State} : stepReport s = .stalled ↔ s.fetch = none := by
  cases hf : s.fetch with
  | some w => simp [stepReport_of_fetch_some hf]
  | none =>
    have hf' : fetchWordOf hardware s.mem s.pc.toNat = none := hf
    simp [stepReport, stepReportOf, reportOf, hf']

/-- Settles O7: the report and the step both stall exactly when the fetch fails. -/
theorem unfetchablePcStallsStep : Obligations.UnfetchablePcStallsStep := by
  unfold Obligations.UnfetchablePcStallsStep
  intro s
  rw [stepReport_eq_stalled, fetch_eq_none_iff_outside]
  exact ⟨Iff.rfl, fun h => step_of_fetch_none (fetch_eq_none_iff_outside.2 h)⟩

/-- A target outside 0x200..0x69E makes the next step stall (R91). -/
theorem stalls_of_pc_outside {s : State} (h : s.pc.toNat < 0x200 ∨ 0x69E < s.pc.toNat) :
    step s = .next s ∧ stepReport s = .stalled :=
  have hf := fetch_eq_none_iff_outside.2 h
  ⟨step_of_fetch_none hf, stepReport_eq_stalled.2 hf⟩

/-! ## Jumps (R97, R99) -/

/-- Settles O16: the handler sets `pc` and answers step code 0. -/
theorem jumpSetsPcToAddress : Obligations.JumpSetsPcToAddress := by
  unfold Obligations.JumpSetsPcToAddress
  intro nnn s
  have hdone : handle hardware (.jp nnn) s = .done (s.setPc (addrOf nnn)) .zero := rfl
  have hexec := exec_of_done_zero hdone
  have hpc : (s.setPc (addrOf nnn)).pc.toNat = nnn.toNat := addrOf_toNat nnn
  refine ⟨decode_encode (i := .jp nnn) rfl, raisedBy_of_done hdone, fun hself => ?_,
    _, hexec, hpc, frame_setPc s _, fun hout => stalls_of_pc_outside (hpc.symm ▸ hout)⟩
  have htarget : addrOf nnn = s.pc := BitVec.eq_of_toNat_eq ((addrOf_toNat nnn).trans hself.symm)
  rw [hexec, htarget]
  rfl

/-- Settles O17: the 16-bit sum does not wrap, and the handler answers step code 0. -/
theorem jumpV0AddsV0ToAddress : Obligations.JumpV0AddsV0ToAddress := by
  unfold Obligations.JumpV0AddsV0ToAddress
  intro nnn s
  have hdone : handle hardware (.jpV0 nnn) s = .done (s.setPc (wide (s.reg v0) + addrOf nnn)) .zero := rfl
  have hpc : (s.setPc (wide (s.reg v0) + addrOf nnn)).pc.toNat = (s.reg 0).toNat + nnn.toNat :=
    wide_add_addrOf_toNat (s.reg v0) nnn
  exact ⟨decode_encode (i := .jpV0 nnn) rfl, raisedBy_of_done hdone, _, exec_of_done_zero hdone, hpc,
    frame_setPc s _, fun hout => stalls_of_pc_outside (hpc.symm ▸ hout)⟩

/-! ## `SYS` (R96) -/

theorem isSysField_of_ne {nnn : Addr12} (hcls : nnn ≠ 0x0E0) (hret : nnn ≠ 0x0EE) :
    Instr.isSysField nnn = true :=
  Bool.and_eq_true_iff.2 ⟨bne_iff_ne.2 hcls, bne_iff_ne.2 hret⟩

theorem handle_sys (nnn : Addr12) (s : State) : handle hardware (.sys nnn) s = .done s .zero := rfl

theorem exec_sys (nnn : Addr12) (s : State) : exec (.sys nnn) s = .next s := exec_of_done_zero (handle_sys nnn s)

/-- A step on a `SYS` word latches it and does nothing else. -/
theorem step_of_fetch_sys {s : State} {w : Word} {nnn : Addr12} (hf : s.fetch = some w)
    (hd : decode w = .ok (.sys nnn)) : step s = .next (s.latch w) := by
  rw [(step_of_decode_ok hf hd).1, exec_sys]

/-- A fetch reads `pc` and memory alone (R91). -/
theorem fetch_congr {s t : State} (hpc : t.pc = s.pc) (hmem : t.mem = s.mem) : t.fetch = s.fetch := by
  rw [State.fetch, hpc, hmem, State.fetch]

/-- Only a step can move `pc` or store to memory (60_exceptions.md R182 to R186). -/
theorem apply_keeps_pc_mem {s t : State} {e : RunEvent} (he : e ≠ .step) (h : e.apply s = .next t) :
    t.pc = s.pc ∧ t.mem = s.mem := by
  cases e with
  | step => exact absurd rfl he
  | tickDelay =>
    cases h
    unfold tickDelay
    split <;> exact ⟨rfl, rfl⟩
  | tickSound =>
    cases h
    unfold tickSound
    split <;> exact ⟨rfl, rfl⟩
  | keyPress | keyRelease | snapshot | displayUpdated => cases h; exact ⟨rfl, rfl⟩

/-- Where `pc` stands on a `SYS` word, no event moves it or stores to memory. -/
theorem apply_on_sys {s t : State} {e : RunEvent} {w : Word} {nnn : Addr12} (hf : s.fetch = some w)
    (hd : decode w = .ok (.sys nnn)) (h : e.apply s = .next t) : t.pc = s.pc ∧ t.mem = s.mem := by
  by_cases he : e = .step
  · subst he
    cases (step_of_fetch_sys hf hd).symm.trans h
    exact ⟨rfl, rfl⟩
  · exact apply_keeps_pc_mem he h

/-- A run that starts on a `SYS` word never leaves it: memory, and so the word, stays as it is. -/
theorem runEvents_on_sys {s t : State} {es : List RunEvent} {w : Word} {nnn : Addr12} (hf : s.fetch = some w)
    (hd : decode w = .ok (.sys nnn)) (h : runEvents s es = .next t) : t.pc = s.pc ∧ t.mem = s.mem := by
  refine runEvents_induction (P := fun u => u.pc = s.pc ∧ u.mem = s.mem) ?_ es s t ⟨rfl, rfl⟩ h
  rintro u v e ⟨hpc, hmem⟩ hv
  obtain ⟨hpc', hmem'⟩ := apply_on_sys ((fetch_congr hpc hmem).trans hf) hd hv
  exact ⟨hpc'.trans hpc, hmem'.trans hmem⟩

/-- Settles O15: the latched state stands on the same `SYS` word, so that another step latches it again and no run
leaves it. -/
theorem sysLeavesStateAsItIs : Obligations.SysLeavesStateAsItIs := by
  unfold Obligations.SysLeavesStateAsItIs
  intro nnn s hcls hret
  have hd : decode (wordA 0x0#4 nnn) = .ok (.sys nnn) :=
    decode_encode (i := .sys nnn) (isSysField_of_ne hcls hret)
  refine ⟨hd, raisedBy_of_done (handle_sys nnn s), exec_sys nnn s, fun hf => ?_⟩
  have hf' := (latch_fetch s (wordA 0x0#4 nnn)).trans hf
  exact ⟨_, step_of_fetch_sys hf hd, rfl, rfl, frame_latch s _, step_of_fetch_sys hf' hd,
    fun es t ht => (runEvents_on_sys hf' hd ht).1⟩

/-! ## Call and return (R95, R98, R100) -/

/-- With `sp` below 15 the slot above it exists (R98). -/
theorem handle_call (nnn : Addr12) {s : State} (h : s.sp.toNat + 1 < 16) :
    handle hardware (.call nnn) s =
      .done { s with stack := s.stack.set (s.sp.toNat + 1) s.pc h, sp := s.sp + 1#8, pc := addrOf nnn } .zero :=
  handleCall_eq_done.2 ⟨rfl, h, rfl⟩

/-- Settles O18: CALL writes the slot above `sp`, and no other. -/
theorem callPushesItsOwnAddress : Obligations.CallPushesItsOwnAddress := by
  unfold Obligations.CallPushesItsOwnAddress
  intro nnn s hsp
  have hdone := handle_call nnn (s := s) (by omega)
  refine ⟨raisedBy_of_done hdone, _, exec_of_done_zero hdone, sp_succ_toNat s (by omega), addrOf_toNat nnn,
    fun j => ?_, frame_callStack s _ _ _⟩
  simp only [eq_comm (a := j.val)]
  exact Vector.getElem_set ..

/-- With `sp` in 1..15 the slot it points at exists (R95). -/
theorem handle_ret {s : State} {j : Fin 16} (hj : s.sp.toNat = j.val) (hpos : 1 ≤ j.val) :
    handle hardware .ret s = .done ((s.setPc s.stack[j]).setSp (s.sp - 1#8)) .zero := by
  have hne : s.sp ≠ 0#8 := fun h0 => by
    have : s.sp.toNat = 0 := congrArg BitVec.toNat h0
    omega
  exact handleRet_eq_done.2 ⟨hne, rfl, hj ▸ j.isLt, by simp [hj]⟩

/-- Settles O19: RET reads the stack and writes `pc` and `sp` alone. -/
theorem retPopsPc : Obligations.RetPopsPc := by
  unfold Obligations.RetPopsPc
  intro s j hj hpos
  have hdone := handle_ret hj hpos
  have hpred := sp_pred_toNat s (by omega)
  refine ⟨raisedBy_of_done hdone, _, exec_of_done_zero hdone, rfl, ?_, fun _ => rfl,
    frame_callStack s s.stack _ _⟩
  rw [setSp_sp, hpred]
  omega

/-- Settles O20: RET pops the slot CALL has just pushed, and lowers the `sp` CALL has just raised. -/
theorem retResumesAtCall : Obligations.RetResumesAtCall := by
  unfold Obligations.RetResumesAtCall
  intro nnn s hsp
  obtain ⟨-, t, hcall, htsp, -, hslots, -⟩ := callPushesItsOwnAddress nnn s hsp
  let j : Fin 16 := ⟨s.sp.toNat + 1, by omega⟩
  obtain ⟨-, u, hret, hpc, husp, -, -⟩ := retPopsPc t j htsp (Nat.le_add_left 1 _)
  have hpushed : t.stack[j] = s.pc := (hslots j).trans (if_pos rfl)
  exact ⟨t, u, hcall, hret, hpc.trans hpushed, BitVec.eq_of_toNat_eq (by omega)⟩

end Sys2Proof.Proofs

/-! # Proofs of the family 41_skip: the skips on an immediate and on a register (41_skip.md R110 to R114). -/

namespace Sys2Proof.Proofs

open Sys2Proof.Machine Sys2Proof.Laws

/-! ## What a skip does (R110) -/

theorem offset_skipCode_beq (a b : Byte) : (skipCode (a == b)).offset = if a = b then 4 else 2 := by
  rw [offset_skipCode]
  simp only [beq_iff_eq]

theorem offset_skipCode_bne (a b : Byte) : (skipCode (a != b)).offset = if a = b then 2 else 4 := by
  rw [offset_skipCode]
  simp only [bne_iff_ne, ite_not]

/-- An instruction whose handler hands its own state back moves `pc` by its step code and changes nothing else. -/
theorem exec_of_done_self {i : Instr} {s : State} {c : StepCode} {d : Word} (h : handle hardware i s = .done s c)
    (hd : c.offset = d) : ∃ t, exec i s = .next t ∧ t.pc = s.pc + d ∧ Frame [] [] s t := by
  refine ⟨s.advance c, ?_, ?_, frame_setPc s _⟩
  · rw [exec_eq_finish_handle, h, settle_done]
  · rw [advance_pc, hd]

/-! ## The four skips (R111 to R114) -/

/-- Settles O21: both handlers hand the state back, with the step code that compares V`x` with `kk`. -/
theorem immediateSkipsCompareVx : Obligations.ImmediateSkipsCompareVx := by
  unfold Obligations.ImmediateSkipsCompareVx
  intro x kk s
  have hse : handle hardware (.seImm x kk) s = .done s (skipCode (s.reg x == kk)) := rfl
  have hsne : handle hardware (.sneImm x kk) s = .done s (skipCode (s.reg x != kk)) := rfl
  exact ⟨decode_encode (i := .seImm x kk) rfl, decode_encode (i := .sneImm x kk) rfl,
    raisedBy_of_done hse, raisedBy_of_done hsne,
    exec_of_done_self hse (offset_skipCode_beq _ _), exec_of_done_self hsne (offset_skipCode_bne _ _)⟩

/-- Settles O22: both handlers hand the state back, with the step code that compares V`x` with V`y`. -/
theorem registerSkipsCompareVxVy : Obligations.RegisterSkipsCompareVxVy := by
  unfold Obligations.RegisterSkipsCompareVxVy
  intro x y s
  have hse : handle hardware (.seReg x y) s = .done s (skipCode (s.reg x == s.reg y)) := rfl
  have hsne : handle hardware (.sneReg x y) s = .done s (skipCode (s.reg x != s.reg y)) := rfl
  exact ⟨decode_encode (i := .seReg x y) rfl, decode_encode (i := .sneReg x y) rfl,
    raisedBy_of_done hse, raisedBy_of_done hsne,
    exec_of_done_self hse (offset_skipCode_beq _ _), exec_of_done_self hsne (offset_skipCode_bne _ _)⟩

end Sys2Proof.Proofs

/-! # Proofs of the family 42_load_alu: the loads, arithmetic, logic and shifts on the general registers, and Cxkk
(42_load_alu.md R120 to R133). -/

namespace Sys2Proof.Proofs

open Sys2Proof.Machine Sys2Proof.Laws

/-! ## Frames of register writes (R126, R132) -/

/-- New general registers and a new place in the random sequence change no other part. -/
theorem same_of_new_registers_draws (s : State) (x : Vector (BitVec Config.vlen) Config.nreg) (n : Nat) {p : Part}
    (hp : p ≠ .randomDraws) : p.Same s { s with x := x, draws := n } := by
  cases p with
  | randomDraws => exact absurd rfl hp
  | callStack => exact ⟨rfl, fun _ => rfl⟩
  | memory => exact fun _ => rfl
  | display => exact fun _ _ => rfl
  | keys => exact fun _ => rfl
  | index | delayTimer | soundTimer | lastWord => rfl

/-- New general registers alone change no part. -/
theorem same_of_new_registers (s : State) (x : Vector (BitVec Config.vlen) Config.nreg) (p : Part) :
    p.Same s { s with x := x } := by
  by_cases hp : p = .randomDraws
  · subst hp
    rfl
  · exact same_of_new_registers_draws s x s.draws hp

theorem frame_setReg (s : State) (r : Reg) (v : Byte) : Frame [r] [] s (s.setReg r v) where
  registers := fun _ hq => setReg_reg_ne s v (mt List.mem_singleton.2 hq)
  others := fun p _ => same_of_new_registers s _ p

theorem frame_afterDraw_setReg (s : State) (r : Reg) (v : Byte) :
    Frame [r] [.randomDraws] s (s.afterDraw.setReg r v) where
  registers := fun _ hq => setReg_reg_ne s.afterDraw v (mt List.mem_singleton.2 hq)
  others := fun _ hp => same_of_new_registers_draws s _ _ (mt List.mem_singleton.2 hp)

theorem frame_flagThenResult (s : State) (flag : Byte) (dst : Reg) (result : State → Byte) :
    Frame [dst, 15] [] s (s.flagThenResult flag dst result) where
  registers := fun q hq => by
    by_contra hne
    obtain rfl | rfl := eq_vf_or_eq_of_flagThenResult_reg_ne hne
    · exact hq (List.mem_cons_of_mem _ (List.mem_singleton_self _))
    · exact hq List.mem_cons_self
  others := fun p _ => same_of_new_registers s _ p

/-! ## The two shapes of an instruction that writes registers -/

/-- An instruction that answers step code 1 is done by moving `pc` on (R94). -/
theorem exec_of_done_one {i : Instr} {s t : State} (h : handle hardware i s = .done t .one) :
    exec i s = .next (t.advance .one) := by
  rw [exec_eq_finish_handle, h, settle_done]

/-- An instruction that writes one register and no flag. -/
theorem exec_of_writeReg {i : Instr} {s : State} {dst : Reg} {v : Byte}
    (h : handle hardware i s = writeReg s dst v) :
    ∃ t, exec i s = .next t ∧ t.reg dst = v ∧ t.pc = s.pc + 2 ∧ Frame [dst] [] s t :=
  ⟨_, exec_of_done_one h, setReg_reg_self s dst v, rfl, frame_advance (frame_setReg s dst v) .one⟩

/-- An instruction that writes a flag and then its result, which it takes from the registers as they are after the
flag write (R126, D9). -/
theorem exec_of_flagThenResult {i : Instr} {s : State} {flag : Byte} {dst : Reg} {result : State → Byte}
    (h : handle hardware i s = .done (s.flagThenResult flag dst result) .one) :
    ∃ t, exec i s = .next t ∧ t.pc = s.pc + 2 ∧ Frame [dst, 15] [] s t ∧
      (dst ≠ 15 → t.reg 15 = flag) ∧ t.reg dst = result (s.setReg 15 flag) := by
  refine ⟨_, exec_of_done_one h, rfl, frame_advance (frame_flagThenResult s flag dst result) .one, fun hdst => ?_, ?_⟩
  · rw [advance_reg, flagThenResult_reg, if_neg hdst.symm]
    exact if_pos rfl
  · rw [advance_reg, flagThenResult_reg, if_pos rfl]
    rfl

/-! ## Flags and results as numbers (10_state.md R13) -/

theorem flagByte_toNat (c : Bool) : (flagByte c).toNat = if c then 1 else 0 := by
  cases c <;> rfl

theorem carryFlag_toNat (a b : Byte) : (carryFlag a b).toNat = if a.toNat + b.toNat > 255 then 1 else 0 := by
  simp [carryFlag, flagByte_toNat]

theorem greaterFlag_toNat (a b : Byte) : (greaterFlag a b).toNat = if a.toNat > b.toNat then 1 else 0 := by
  simp [greaterFlag, flagByte_toNat]

theorem lowBitFlag_toNat (a : Byte) : (lowBitFlag a).toNat = a.toNat % 2 :=
  (BitVec.toNat_and ..).trans (Nat.and_one_is_mod _)

/-- Masking with bit 7 keeps the most significant bit in its place. -/
theorem highBitFlag_toNat (a : Byte) : (highBitFlag a).toNat = if a.toNat ≥ 0x80 then 0x80 else 0 := by
  have hmsb : (highBitFlag a).toNat = a.msb.toNat * 2 ^ 7 := (BitVec.toNat_and ..).trans (Nat.and_two_pow _ 7)
  rw [hmsb, BitVec.msb_eq_decide]
  by_cases h : a.toNat ≥ 0x80 <;> simp [h]

theorem byte_sub_toNat (a b : Byte) : (a - b).toNat = (a.toNat + 256 - b.toNat) % 256 := by
  bv_omega

theorem byte_shiftRight_one_toNat (a : Byte) : (a >>> 1).toNat = a.toNat / 2 :=
  BitVec.toNat_ushiftRight ..

theorem byte_shiftLeft_toNat (a : Byte) (n : Nat) : (a <<< n).toNat = a.toNat * 2 ^ n % 256 := by
  rw [BitVec.toNat_shiftLeft, Nat.shiftLeft_eq]

/-! ## Loads, addition of an immediate, logic (R120 to R125) -/

/-- Settles O23: both handlers write V`x` alone. -/
theorem loadsWriteVx : Obligations.LoadsWriteVx := by
  unfold Obligations.LoadsWriteVx
  intro x y kk s
  have himm : handle hardware (.ldImm x kk) s = writeReg s x kk := rfl
  have hreg : handle hardware (.ldReg x y) s = writeReg s x (s.reg y) := rfl
  exact ⟨decode_encode (i := .ldImm x kk) rfl, decode_encode (i := .ldReg x y) rfl,
    raisedBy_of_done himm, raisedBy_of_done hreg, exec_of_writeReg himm, exec_of_writeReg hreg⟩

/-- Settles O24: the handler writes the byte sum to V`x` alone. -/
theorem addImmediateWrapsWithoutFlag : Obligations.AddImmediateWrapsWithoutFlag := by
  unfold Obligations.AddImmediateWrapsWithoutFlag
  intro x kk s
  have hadd : handle hardware (.addImm x kk) s = writeReg s x (s.reg x + kk) := rfl
  obtain ⟨t, hexec, hx, hpc, hframe⟩ := exec_of_writeReg hadd
  exact ⟨decode_encode (i := .addImm x kk) rfl, raisedBy_of_done hadd, t, hexec,
    by rw [hx, BitVec.toNat_add], hpc, hframe⟩

/-- Settles O25: each handler writes the byte operation to V`x` alone, and that operation acts bit by bit. -/
theorem logicActsBitByBit : Obligations.LogicActsBitByBit := by
  unfold Obligations.LogicActsBitByBit
  intro x y s
  refine ⟨?_, ?_, ?_⟩
  · obtain ⟨t, hexec, hx, hpc, hframe⟩ := exec_of_writeReg (i := .orReg x y) (s := s) rfl
    exact ⟨t, hexec, hpc, hframe, fun k => by rw [hx, BitVec.getLsbD_or]⟩
  · obtain ⟨t, hexec, hx, hpc, hframe⟩ := exec_of_writeReg (i := .andReg x y) (s := s) rfl
    exact ⟨t, hexec, hpc, hframe, fun k => by rw [hx, BitVec.getLsbD_and]⟩
  · obtain ⟨t, hexec, hx, hpc, hframe⟩ := exec_of_writeReg (i := .xorReg x y) (s := s) rfl
    exact ⟨t, hexec, hpc, hframe, fun k => by rw [hx, BitVec.getLsbD_xor]⟩

/-! ## Addition and subtraction with a flag (R126 to R128, R130) -/

/-- Settles O26: the sum is taken after the flag write, so that an operand which is VF reads as the carry. -/
theorem addWritesCarryThenSum : Obligations.AddWritesCarryThenSum := by
  unfold Obligations.AddWritesCarryThenSum
  intro x y s
  obtain ⟨t, hexec, hpc, hframe, hflag, hsum⟩ := exec_of_flagThenResult (i := .addReg x y) (s := s) rfl
  have hc := carryFlag_toNat (s.reg x) (s.reg y)
  refine ⟨t, hexec, hpc, hframe, fun hx => ?_, fun hx hy => ?_, fun hx hy => ?_, fun hx hy => ?_, fun hx hy => ?_⟩
  · rw [hflag hx, hc]
  · rw [hsum, BitVec.toNat_add, setReg_reg_ne _ _ hx, setReg_reg_ne _ _ hy]
  · subst hx
    rw [hsum, BitVec.toNat_add, setReg_reg_self, setReg_reg_ne _ _ hy, hc]
  · subst hy
    rw [hsum, BitVec.toNat_add, setReg_reg_ne _ _ hx, setReg_reg_self, hc]
  · subst hx hy
    rw [hsum, BitVec.toNat_add, setReg_reg_self, hc]
    split <;> rfl

/-- Settles O27: the difference is taken after the flag write, so that an operand which is VF reads as the flag. -/
theorem subWritesStrictGreaterThenDifference : Obligations.SubWritesStrictGreaterThenDifference := by
  unfold Obligations.SubWritesStrictGreaterThenDifference
  intro x y s
  obtain ⟨t, hexec, hpc, hframe, hflag, hdiff⟩ := exec_of_flagThenResult (i := .sub x y) (s := s) rfl
  have hg := greaterFlag_toNat (s.reg x) (s.reg y)
  refine ⟨t, hexec, hpc, hframe, fun hx => ?_, fun hx hy => ?_, fun hx hy => ?_, fun hx hy => ?_, fun hx hy => ?_⟩
  · rw [hflag hx, hg]
  · rw [hdiff, byte_sub_toNat, setReg_reg_ne _ _ hx, setReg_reg_ne _ _ hy]
  · subst hx
    rw [hdiff, byte_sub_toNat, setReg_reg_self, setReg_reg_ne _ _ hy, hg]
  · subst hy
    rw [hdiff, byte_sub_toNat, setReg_reg_ne _ _ hx, setReg_reg_self, hg]
  · subst hx hy
    rw [hdiff, BitVec.sub_self]
    rfl

/-- 8xy7 is 8yx5 (R130). -/
theorem exec_subn_eq_exec_sub (x y : Reg) (s : State) : exec (.subn x y) s = exec (.sub y x) s := rfl

/-- Settles O28: 8xy7 is 8yx5, whose cases `subWritesStrictGreaterThenDifference` gives. -/
theorem subnWritesVyAndEqualsSwappedSub : Obligations.SubnWritesVyAndEqualsSwappedSub := by
  unfold Obligations.SubnWritesVyAndEqualsSwappedSub
  intro x y s
  obtain ⟨t, hexec, hpc, hframe, hflag, hneither, hdst, hsrc, hboth⟩ := subWritesStrictGreaterThenDifference y x s
  exact ⟨⟨t, (exec_subn_eq_exec_sub x y s).trans hexec, hpc, hframe, hflag, fun hx hy => hneither hy hx,
    fun hx hy => hdst hy hx, fun hx hy => hsrc hy hx, fun hx hy => hboth hy hx⟩, exec_subn_eq_exec_sub x y s⟩

/-! ## Shifts by one (R129, R131) -/

theorem lowBitFlag_shiftRight_one (a : Byte) : lowBitFlag a >>> 1 = 0 := by
  apply BitVec.eq_of_toNat_eq
  rw [byte_shiftRight_one_toNat, lowBitFlag_toNat]
  exact Nat.div_eq_of_lt (Nat.mod_lt _ Nat.two_pos)

theorem highBitFlag_shiftLeft_one (a : Byte) : highBitFlag a <<< 1 = 0 := by
  apply BitVec.eq_of_toNat_eq
  rw [byte_shiftLeft_toNat, highBitFlag_toNat]
  split <;> rfl

/-- Settles O29: where `x` is VF the shift acts on the flag just written, and moves its one bit out. -/
theorem shiftsWriteShiftedBitThenResult : Obligations.ShiftsWriteShiftedBitThenResult := by
  unfold Obligations.ShiftsWriteShiftedBitThenResult
  intro x y s
  constructor
  · obtain ⟨t, hexec, hpc, hframe, hflag, hres⟩ := exec_of_flagThenResult (i := .shr x y) (s := s) rfl
    refine ⟨t, hexec, hpc, hframe, fun hx => ⟨?_, ?_⟩, fun hx => ?_⟩
    · rw [hflag hx, lowBitFlag_toNat]
    · rw [hres, byte_shiftRight_one_toNat, setReg_reg_ne _ _ hx]
    · subst hx
      rw [hres, setReg_reg_self, lowBitFlag_shiftRight_one]
  · obtain ⟨t, hexec, hpc, hframe, hflag, hres⟩ := exec_of_flagThenResult (i := .shl x y) (s := s) rfl
    refine ⟨t, hexec, hpc, hframe, fun hx => ⟨?_, ?_⟩, fun hx => ?_⟩
    · rw [hflag hx, highBitFlag_toNat]
    · rw [hres, byte_shiftLeft_toNat, setReg_reg_ne _ _ hx, pow_one, Nat.mul_comm]
    · subst hx
      rw [hres, setReg_reg_self, highBitFlag_shiftLeft_one]

/-! ## Cxkk (R132, D7, D8) -/

theorem shiftByRandom_toNat (v r kk : Byte) : (shiftByRandom v r kk).toNat = v.toNat * 2 ^ (r &&& kk).toNat % 256 :=
  byte_shiftLeft_toNat v _

theorem shiftByRandom_of_ge {v r kk : Byte} (h : 8 ≤ (r &&& kk).toNat) : shiftByRandom v r kk = 0 :=
  BitVec.shiftLeft_eq_zero h

theorem shiftByRandom_mask_zero (v r : Byte) : shiftByRandom v r 0 = v := by
  simp [shiftByRandom]

theorem exec_rnd (x : Reg) (kk : Byte) (s : State) :
    ∃ t, exec (.rnd x kk) s = .next t ∧ t.reg x = shiftByRandom (s.reg x) s.nextRandom kk ∧
      t.draws = s.draws + 1 ∧ t.pc = s.pc + 2 ∧ Frame [x] [.randomDraws] s t :=
  ⟨_, exec_of_done_one rfl, setReg_reg_self s.afterDraw x _, rfl, rfl,
    frame_advance (frame_afterDraw_setReg s x _) .one⟩

/-- Settles O30: the byte drawn is the next of the sequence, and V`x` is its masked shift. -/
theorem randomShiftsVxLeft : Obligations.RandomShiftsVxLeft := by
  unfold Obligations.RandomShiftsVxLeft
  intro x kk s
  obtain ⟨t, hexec, hx, hdraws, hpc, hframe⟩ := exec_rnd x kk s
  refine ⟨t, s.nextRandom, hexec, rfl, ?_, fun h8 => ?_, fun hkk => ?_, hdraws, hpc, hframe⟩
  · rw [hx, shiftByRandom_toNat]
  · rw [hx, shiftByRandom_of_ge h8]
  · rw [hx, hkk, shiftByRandom_mask_zero]

end Sys2Proof.Proofs

/-! # Proofs of the family 43_index_memory: the index register, the stores at `I` and the register load from `I`
(43_index_memory.md R140 to R146). -/

namespace Sys2Proof.Proofs

open Sys2Proof.Machine Sys2Proof.Laws

/-! ## Writes of `I` (R140 to R142) -/

theorem frame_setI (s : State) (v : Word) : Frame [] [.index] s (s.setI v) where
  registers := fun _ _ => rfl
  others := fun p hp => by
    cases p with
    | index => exact absurd (List.mem_singleton_self _) hp
    | callStack => exact ⟨rfl, fun _ => rfl⟩
    | memory => exact fun _ => rfl
    | display => exact fun _ _ => rfl
    | keys => exact fun _ => rfl
    | delayTimer | soundTimer | lastWord | randomDraws => rfl

/-- An instruction that writes `I` and nothing else. -/
theorem exec_of_setI {i : Instr} {s : State} {v : Word} (h : handle hardware i s = .done (s.setI v) .one) :
    ∃ t, exec i s = .next t ∧ t.I = v ∧ t.pc = s.pc + 2 ∧ Frame [] [.index] s t :=
  ⟨_, exec_of_done_one h, rfl, rfl, frame_advance (frame_setI s v) .one⟩

/-- Five times a byte fits in 16 bits, so that a glyph address does not wrap (R142). -/
theorem glyphAddr_toNat (v : Byte) : (glyphAddr hardware v).toNat = 5 * v.toNat := by
  have hv := v.isLt
  rw [glyphAddr, hardware_glyphBytes, BitVec.toNat_ofNat]
  exact Nat.mod_eq_of_lt (by omega)

/-- Settles O31: both handlers write `I` alone, Annn its widened address and Fx29 the glyph address. -/
theorem indexLoadsSetI : Obligations.IndexLoadsSetI := by
  unfold Obligations.IndexLoadsSetI
  intro nnn x s
  have hldI : handle hardware (.ldI nnn) s = .done (s.setI (addrOf nnn)) .one := rfl
  have hldF : handle hardware (.ldF x) s = .done (s.setI (glyphAddr hardware (s.reg x))) .one := rfl
  refine ⟨decode_encode (i := .ldI nnn) rfl, decode_encode (i := .ldF x) rfl,
    raisedBy_of_done hldI, raisedBy_of_done hldF, ?_, ?_⟩
  · obtain ⟨t, hexec, hI, hpc, hframe⟩ := exec_of_setI hldI
    exact ⟨t, hexec, by rw [hI, addrOf_toNat], hpc, hframe⟩
  · obtain ⟨t, hexec, hI, hpc, hframe⟩ := exec_of_setI hldF
    exact ⟨t, hexec, by rw [hI, glyphAddr_toNat], hpc, hframe⟩

/-- The sum of Fx1E wraps at 16 bits (R141, D12). -/
theorem word_add_wide_toNat (a : Word) (v : Byte) : (a + wide v).toNat = (a.toNat + v.toNat) % 65536 := by
  rw [BitVec.toNat_add, wide_toNat]

/-- Settles O32: the handler writes the 16-bit sum to `I` alone. -/
theorem addIndexWrapsAtSixteenBits : Obligations.AddIndexWrapsAtSixteenBits := by
  unfold Obligations.AddIndexWrapsAtSixteenBits
  intro x s
  obtain ⟨t, hexec, hI, hpc, hframe⟩ := exec_of_setI (i := .addI x) (s := s) rfl
  exact ⟨t, hexec, by rw [hI, word_add_wide_toNat], hpc, hframe⟩

/-! ## Stores at `I` (R143, R144, 20_memory.md R46) -/

/-- An instruction that stores `bytes` at `I`, where the span is inside the program window. -/
theorem exec_of_storeAtI {i : Instr} {s : State} {bytes : List Byte}
    (h : handle hardware i s = storeAtI hardware s bytes) (hin : InProg s.I.toNat bytes.length) :
    ∃ t, exec i s = .next t ∧ t.pc = s.pc + 2 ∧ Frame [] [.memory] s t ∧
      (∀ k, k < bytes.length → t.mem.peek (s.I.toNat + k) = bytes.getD k 0) ∧
      MemKeptOutside s.I.toNat bytes.length s t := by
  have hdone := h.trans (storeAtI_eq_done.2 ⟨rfl, hin, rfl⟩)
  exact ⟨_, exec_of_done_one hdone, rfl, frame_advance (frame_setMem s _) .one,
    fun _ hk => peek_writeBytes_inside bytes s.mem _ hk,
    fun _ hb => peek_writeBytes_outside bytes s.mem _ _ hb⟩

theorem bcdDigits_length (v : Byte) : (bcdDigits v).length = 3 := rfl

/-- Each digit of a byte fits in the byte it is stored in (R143). -/
theorem bcdDigits_toNat (v : Byte) :
    ((bcdDigits v).getD 0 0).toNat = v.toNat / 100 ∧ ((bcdDigits v).getD 1 0).toNat = v.toNat / 10 % 10 ∧
      ((bcdDigits v).getD 2 0).toNat = v.toNat % 10 := by
  have hv := v.isLt
  exact ⟨Nat.mod_eq_of_lt (by omega), Nat.mod_eq_of_lt (by omega), Nat.mod_eq_of_lt (by omega)⟩

/-- Settles O33: the handler stores the three digits at `I`, and each is read back as the number it stands for. -/
theorem bcdStoresThreeDigitsAtI : Obligations.BcdStoresThreeDigitsAtI := by
  unfold Obligations.BcdStoresThreeDigitsAtI
  intro x s hlo hhi
  have hlen := bcdDigits_length (s.reg x)
  have hin : InProg s.I.toNat (bcdDigits (s.reg x)).length := inProg_iff.2 ⟨hlo, by omega⟩
  obtain ⟨t, hexec, hpc, hframe, hbytes, hkept⟩ := exec_of_storeAtI (i := .ldB x) rfl hin
  obtain ⟨hundreds, htens, hunits⟩ := bcdDigits_toNat (s.reg x)
  rw [hlen] at hbytes hkept
  refine ⟨t, hexec, hpc, hframe, ?_, ?_, ?_, hkept⟩
  · exact (congrArg BitVec.toNat (hbytes 0 (by decide))).trans hundreds
  · rw [hbytes 1 (by decide), htens]
  · rw [hbytes 2 (by decide), hunits]

/-- Settles O34: the handler stores the list V0 to V`x` at `I`, whose byte `r` is V`r`. -/
theorem storeRegistersWritesV0ToVxAtI : Obligations.StoreRegistersWritesV0ToVxAtI := by
  unfold Obligations.StoreRegistersWritesV0ToVxAtI
  intro x s hlo hhi
  have hlen := regsUpTo_length s x
  have hin : InProg s.I.toNat (s.regsUpTo x).length := inProg_iff.2 ⟨hlo, by omega⟩
  obtain ⟨t, hexec, hpc, hframe, hbytes, hkept⟩ := exec_of_storeAtI (i := .storeRegs x) rfl hin
  refine ⟨t, hexec, hpc, hframe, fun r hr => ?_, hlen ▸ hkept⟩
  rw [hbytes r.val (by omega), regsUpTo_getD s x r hr]

/-! ## The register load from `I` (R145, 20_memory.md R45) -/

theorem setRegsFrom_pc (s : State) (i : Nat) (bytes : List Byte) : (s.setRegsFrom i bytes).pc = s.pc := by
  rw [setRegsFrom_eq]

/-- Loading registers and moving `pc` on changes no part beside the general registers and `pc`. -/
theorem same_setRegsFrom_advance (s : State) (i : Nat) (bytes : List Byte) (c : StepCode) (p : Part) :
    p.Same s ((s.setRegsFrom i bytes).advance c) := by
  rw [setRegsFrom_eq]
  have hsame := same_of_new_registers s (s.setRegsFrom i bytes).x p
  cases p <;> exact hsame

/-- Settles O35: the read of one window answers the bytes from `I` on, and they are loaded from V0 on. -/
theorem loadRegistersReadsV0ToVxFromI : Obligations.LoadRegistersReadsV0ToVxFromI := by
  unfold Obligations.LoadRegistersReadsV0ToVxFromI
  intro x s hin
  obtain ⟨bytes, hread, hlen, hbytes⟩ := (memReadStaysInsideOneWindow s.mem s.I.toNat (x.val + 1)).1 hin
  have hdone : handle hardware (.loadRegs x) s = .done (s.setRegsFrom 0 bytes) .one :=
    handleLoadRegs_eq_done.2 ⟨rfl, bytes, hread, rfl⟩
  refine ⟨_, exec_of_done_one hdone, ?_, fun r => ?_, same_setRegsFrom_advance s 0 bytes .one⟩
  · rw [advance_pc, setRegsFrom_pc, offset_one]
  · rw [advance_reg, setRegsFrom_reg, hlen, Nat.sub_zero]
    by_cases hr : r.val ≤ x.val
    · rw [if_pos (by omega), if_pos hr, List.getD_eq_getElem?_getD, hbytes r.val (by omega), Option.getD_some]
    · rw [if_neg (by omega), if_neg hr]

end Sys2Proof.Proofs

/-! # Proofs of the family 44_display: 00E0, and the XOR draw Dxyn by pixels (44_display.md R151 to R156). -/

namespace Sys2Proof.Proofs

open Sys2Proof.Machine Sys2Proof.Laws

/-! ## A draw, pixel by pixel (R152, R155) -/

/-- The pixels of a sprite's row are those of the byte mask the row is drawn with. -/
theorem spritePixel_eq_rowMask (xc yc : Byte) (bytes : List Byte) {c : Nat} (r : Nat) (hc : c < 64) :
    spritePixel xc yc bytes c r =
      (decide ((r + 32 - yc.toNat % 32) % 32 < bytes.length) &&
        (rowMask xc (bytes.getD ((r + 32 - yc.toNat % 32) % 32) 0) (c / 8)).getLsbD (7 - c % 8)) := by
  rw [rowMask_pixel xc _ c hc, ← Bool.and_assoc]
  rfl

theorem blitMask_pixel (xc yc : Byte) {bytes : List Byte} {c r : Nat} (hn : bytes.length ≤ 32) (hc : c < 64)
    (hr : r < 32) : (blitMask xc yc.toNat bytes r (c / 8)).getLsbD (7 - c % 8) = spritePixel xc yc bytes c r := by
  rw [blitMask_eq bytes xc _ _ _ hn, Nat.mod_eq_of_lt hr, spritePixel_eq_rowMask xc yc bytes r hc]
  split
  · next h => rw [decide_eq_true h, Bool.true_and]
  · next h => rw [decide_eq_false h, Bool.false_and, BitVec.getLsbD_zero]

/-- A draw flips exactly the pixels of the wrapped sprite. -/
theorem pixel_blit (xc yc : Byte) {bytes : List Byte} (f : Framebuffer) {c r : Nat} (hn : bytes.length ≤ 32)
    (hc : c < 64) (hr : r < 32) :
    pixel (blit xc yc bytes f).1 c r = (pixel f c r ^^ spritePixel xc yc bytes c r) := by
  rw [pixel, fbByte_blit, BitVec.getLsbD_xor, blitMask_pixel xc yc hn hc hr, pixel]

/-- A draw collides exactly when the wrapped sprite meets a lit pixel: row `i` of the sprite falls on row
`(yc + i) mod 32`. -/
theorem blit_collides_iff (xc yc : Byte) {bytes : List Byte} (f : Framebuffer) (hn : bytes.length ≤ 32) :
    (blit xc yc bytes f).2 = true ↔
      ∃ c r, c < 64 ∧ r < 32 ∧ pixel f c r = true ∧ spritePixel xc yc bytes c r = true := by
  rw [blit, blitFrom_collides bytes xc _ _ f hn]
  simp only [Bool.false_eq_true, false_or, rowCollides_iff]
  constructor
  · rintro ⟨i, hi, c, hc, hlit, hbit⟩
    have hrow : ((yc.toNat + i) % 32 + 32 - yc.toNat % 32) % 32 = i := by omega
    refine ⟨c, (yc.toNat + i) % 32, hc, Nat.mod_lt _ (by decide), ?_, ?_⟩
    · rwa [pixel, fbByte, fbRow_mod]
    · rw [spritePixel_eq_rowMask xc yc bytes _ hc, hrow, hbit, decide_eq_true hi, Bool.and_self]
  · rintro ⟨c, r, hc, hr, hlit, hsprite⟩
    rw [spritePixel_eq_rowMask xc yc bytes _ hc, Bool.and_eq_true, decide_eq_true_eq] at hsprite
    obtain ⟨hi, hbit⟩ := hsprite
    have hrow : (yc.toNat + (r + 32 - yc.toNat % 32) % 32) % 32 = r := by omega
    refine ⟨_, hi, c, hc, ?_, hbit⟩
    rwa [← fbRow_mod, hrow]

/-! ## Two equal draws (R156) -/

/-- Settles O39: both draws XOR the same mask into a byte, whatever the framebuffer holds. -/
theorem blitTwiceRestoresFramebuffer : Obligations.BlitTwiceRestoresFramebuffer := by
  unfold Obligations.BlitTwiceRestoresFramebuffer
  intro xc yc bytes f r b
  rw [fbByte_blit, fbByte_blit, BitVec.xor_assoc, BitVec.xor_self, BitVec.xor_zero]

/-- Settles O40: under a 1 bit of the sprite the second draw finds the pixel as the first has flipped it. -/
theorem secondBlitCollidesOnDarkPixels : Obligations.SecondBlitCollidesOnDarkPixels := by
  unfold Obligations.SecondBlitCollidesOnDarkPixels
  intro xc yc bytes f hlen
  have hn : bytes.length ≤ 32 := hlen.trans (by decide)
  rw [blit_collides_iff xc yc _ hn]
  constructor
  · rintro ⟨c, r, hc, hr, hlit, hsprite⟩
    rw [pixel_blit xc yc f hn hc hr, hsprite, Bool.xor_true, Bool.not_eq_true'] at hlit
    exact ⟨c, r, hc, hr, hsprite, hlit⟩
  · rintro ⟨c, r, hc, hr, hsprite, hdark⟩
    refine ⟨c, r, hc, hr, ?_, hsprite⟩
    rw [pixel_blit xc yc f hn hc hr, hsprite, hdark, Bool.xor_true, Bool.not_false]

/-! ## Frames of the display instructions -/

theorem frame_setFb (s : State) (f : Framebuffer) : Frame [] [.display] s (s.setFb f) where
  registers := fun _ _ => rfl
  others := fun p hp => by
    cases p with
    | display => exact absurd (List.mem_singleton_self _) hp
    | callStack => exact ⟨rfl, fun _ => rfl⟩
    | memory => exact fun _ => rfl
    | keys => exact fun _ => rfl
    | index | delayTimer | soundTimer | lastWord | randomDraws => rfl

/-- A register write adds its register to a frame. -/
theorem frame_setReg_of_frame {regs : List Reg} {parts : List Part} {s t : State} (h : Frame regs parts s t)
    (r : Reg) (v : Byte) : Frame (r :: regs) parts s (t.setReg r v) where
  registers := fun q hq => by
    rw [setReg_reg_ne t v (List.ne_of_not_mem_cons hq)]
    exact h.registers q (List.not_mem_of_not_mem_cons hq)
  others := fun p hp => by cases p <;> exact h.others _ hp

/-! ## 00E0 (R151) -/

theorem handle_cls (s : State) : handle hardware .cls s = .done (s.setFb clearFb) .one := rfl

/-- The display-update query looks for the top nibble of Dxyn, which 0x00E0 does not have (20_memory.md R56). -/
theorem displayUpdated_of_IR_cls {s : State} (h : s.IR = 0x00E0) : displayUpdated s = false := by
  rw [displayUpdated, h]
  rfl

/-- Settles O36: the handler clears the framebuffer and nothing else, and the step has latched 0x00E0 before it. -/
theorem clearZeroesFramebuffer : Obligations.ClearZeroesFramebuffer := by
  unfold Obligations.ClearZeroesFramebuffer
  intro s
  have hd : decode 0x00E0 = .ok .cls := decode_encode (i := .cls) rfl
  refine ⟨hd, raisedBy_of_done (handle_cls s), ?_, fun hf => ?_⟩
  · exact ⟨_, exec_of_done_one (handle_cls s), fbByte_clearFb, rfl, frame_advance (frame_setFb s _) .one⟩
  · have hstep := (step_of_decode_ok hf hd).1.trans (exec_of_done_one (handle_cls _))
    exact ⟨_, hstep, rfl, displayUpdated_of_IR_cls rfl⟩

/-! ## Dxyn (R153, R154) -/

/-- Settles O38: no sprite byte is read and none is drawn, so that the cleared flag is all the handler writes. -/
theorem drawZeroRowsClearsVF : Obligations.DrawZeroRowsClearsVF := by
  unfold Obligations.DrawZeroRowsClearsVF
  intro x y s
  have hdraw : handle hardware (.drw x y 0) s = writeReg s vf (flagByte false) := rfl
  exact ⟨raisedBy_of_done hdraw, exec_of_writeReg hdraw⟩

/-- A sprite of at least one row is read like any other span of memory (R153). -/
theorem spriteBytes_of_ne_zero {n : Nibble} (s : State) (hn : n ≠ 0) :
    spriteBytes hardware s n = memRead s.mem s.I.toNat n.toNat := if_neg hn

/-- A draw whose sprite bytes can be read writes the framebuffer and VF. -/
theorem exec_drw_of_spriteBytes {x y : Reg} {n : Nibble} {s : State} {sprite : List Byte}
    (h : spriteBytes hardware s n = some sprite) :
    ∃ t, exec (.drw x y n) s = .next t ∧ t.fb = (blit (s.reg x) (s.reg y) sprite s.fb).1 ∧
      t.reg 15 = flagByte (blit (s.reg x) (s.reg y) sprite s.fb).2 ∧ t.pc = s.pc + 2 ∧
      Frame [15] [.display] s t :=
  ⟨_, exec_of_done_one (handleDrw_eq_done.2 ⟨rfl, sprite, h, rfl⟩), rfl, setReg_reg_self _ _ _, rfl,
    frame_advance (frame_setReg_of_frame (frame_setFb s _) _ _) .one⟩

theorem flagByte_eq_zero_or_one (c : Bool) : flagByte c = 0 ∨ flagByte c = 1 := by
  cases c <;> decide

theorem flagByte_eq_one_iff (c : Bool) : flagByte c = 1 ↔ c = true := by
  cases c <;> decide

/-- Settles O37: the bytes read at `I` are drawn, and `pixel_blit` and `blit_collides_iff` say what the framebuffer
and the flag then are. -/
theorem drawXorsSpritePixels : Obligations.DrawXorsSpritePixels := by
  unfold Obligations.DrawXorsSpritePixels
  intro x y n s hne hin
  obtain ⟨sprite, hread, hlen, hbytes⟩ := (memReadStaysInsideOneWindow s.mem s.I.toNat n.toNat).1 hin
  obtain ⟨t, hexec, hfb, hvf, hpc, hframe⟩ :=
    exec_drw_of_spriteBytes (x := x) (y := y) ((spriteBytes_of_ne_zero s hne).trans hread)
  have hn : sprite.length ≤ 32 := by omega
  refine ⟨t, sprite, hexec, hlen, hbytes, fun c r hc hr => ?_, ?_, ?_, hpc, hframe⟩
  · rw [hfb, pixel_blit _ _ _ hn hc hr]
  · rw [hvf]
    exact flagByte_eq_zero_or_one _
  · rw [hvf, flagByte_eq_one_iff, blit_collides_iff _ _ _ hn]

end Sys2Proof.Proofs

/-! # Proofs of the family 45_keyboard_timer: the key skips, the key wait, and the moves between a general register
and a timer (45_keyboard_timer.md R160 to R165). -/

namespace Sys2Proof.Proofs

open Sys2Proof.Machine Sys2Proof.Laws

/-! ## Frames of timer writes (R164, R165) -/

/-- Of new values in the two timers a part sees its own at most. -/
theorem same_of_new_timers (s : State) (dt st : Byte) {p : Part} (hdt : p = .delayTimer → dt = s.DT)
    (hst : p = .soundTimer → st = s.ST) : p.Same s { s with DT := dt, ST := st } := by
  cases p with
  | delayTimer => exact hdt rfl
  | soundTimer => exact hst rfl
  | callStack => exact ⟨rfl, fun _ => rfl⟩
  | memory => exact fun _ => rfl
  | display => exact fun _ _ => rfl
  | keys => exact fun _ => rfl
  | index | lastWord | randomDraws => rfl

theorem frame_setDT (s : State) (v : Byte) : Frame [] [.delayTimer] s (s.setDT v) where
  registers := fun _ _ => rfl
  others := fun _ hp =>
    same_of_new_timers s v s.ST (fun h => absurd (List.mem_singleton.2 h) hp) (fun _ => rfl)

theorem frame_setST (s : State) (v : Byte) : Frame [] [.soundTimer] s (s.setST v) where
  registers := fun _ _ => rfl
  others := fun _ hp =>
    same_of_new_timers s s.DT v (fun _ => rfl) (fun h => absurd (List.mem_singleton.2 h) hp)

/-! ## Pulses of the sound timer (60_exceptions.md R183) -/

/-- A sound tick counts down and stays at 0. -/
theorem tickSound_ST_toNat (s : State) : (tickSound s).ST.toNat = s.ST.toNat - 1 := by
  unfold tickSound
  split
  · next h => exact ST_pred_toNat s h
  · next h => omega

theorem output_tickSound (s : State) :
    RunEvent.output s .tickSound = if 0 < s.ST.toNat then .tonePulse else .silent := by
  simp [RunEvent.output, tonePulse]

theorem runOutputs_tickSound_cons (s : State) (es : List RunEvent) :
    runOutputs s (.tickSound :: es) = RunEvent.output s .tickSound :: runOutputs (tickSound s) es := rfl

/-- Sound ticks in a row pulse as long as `ST` lasts, and are silent from then on. -/
theorem runOutputs_replicate_tickSound (n : Nat) (s : State) :
    runOutputs s (List.replicate n .tickSound) =
      List.replicate (min n s.ST.toNat) .tonePulse ++ List.replicate (n - s.ST.toNat) .silent := by
  induction n generalizing s with
  | zero => simp [runOutputs]
  | succ n ih =>
    rw [List.replicate_succ, runOutputs_tickSound_cons, output_tickSound, ih, tickSound_ST_toNat]
    cases s.ST.toNat with
    | zero => simp [List.replicate_succ]
    | succ k =>
      rw [if_pos k.succ_pos, Nat.add_sub_cancel, Nat.add_min_add_right, Nat.add_sub_add_right,
        List.replicate_succ, List.cons_append]

/-- `n` sound ticks pulse `ST` times, or `n` times where `ST` is larger. -/
theorem count_tonePulse_replicate_tickSound (n : Nat) (s : State) :
    (runOutputs s (List.replicate n .tickSound)).count .tonePulse = min n s.ST.toNat := by
  rw [runOutputs_replicate_tickSound, List.count_append, List.count_replicate_self, List.count_replicate]
  rfl

/-! ## No handler reads `ST` (R165) -/

/-- A handler's answer with `ST` replaced in the state it leaves; a diagnostic carries no state. -/
def answerWithST (v : Byte) : Handled → Handled
  | .done t c => .done (t.setST v) c
  | .raised d => .raised d

theorem answerWithST_orRaise {α : Type} (v : Byte) (d : Diag) (o : Option α) (k : α → Handled) :
    answerWithST v (orRaise d o k) = orRaise d o fun a => answerWithST v (k a) := by
  cases o <;> rfl

theorem settle_answerWithST (s : State) (v : Byte) (h : Handled) :
    (s.setST v).settle (answerWithST v h) = (s.settle h).setST v := by
  cases h <;> rfl

theorem stackWrite_setST (s : State) (v : Byte) (j : Nat) (a : Word) :
    (s.setST v).stackWrite j a = (s.stackWrite j a).map (State.setST · v) := by
  unfold State.stackWrite
  split <;> rfl

theorem setRegsFrom_setST (bytes : List Byte) (s : State) (v : Byte) (i : Nat) :
    (s.setST v).setRegsFrom i bytes = (s.setRegsFrom i bytes).setST v := by
  induction bytes generalizing s i with
  | nil => rfl
  | cons b bs ih =>
    unfold State.setRegsFrom
    split
    · exact ih (s.setReg _ b) (i + 1)
    · rfl

theorem handleRet_setST (s : State) (v : Byte) : handleRet (s.setST v) = answerWithST v (handleRet s) := by
  unfold handleRet
  rw [setST_sp]
  split
  · rfl
  · rw [answerWithST_orRaise]
    rfl

theorem handleCall_setST (nnn : Addr12) (s : State) (v : Byte) :
    handleCall hardware nnn (s.setST v) = answerWithST v (handleCall hardware nnn s) := by
  unfold handleCall
  rw [answerWithST_orRaise, stackWrite_setST, setST_sp, setST_pc]
  cases s.stackWrite (s.sp.toNat + 1) (s.pc + hardware.callLinkOffset) <;> rfl

theorem storeAtI_setST (s : State) (v : Byte) (bytes : List Byte) :
    storeAtI hardware (s.setST v) bytes = answerWithST v (storeAtI hardware s bytes) := by
  unfold storeAtI
  rw [answerWithST_orRaise]
  rfl

theorem handleLoadRegs_setST (x : Reg) (s : State) (v : Byte) :
    handleLoadRegs hardware x (s.setST v) = answerWithST v (handleLoadRegs hardware x s) := by
  unfold handleLoadRegs
  simp only [answerWithST_orRaise, setRegsFrom_setST]
  rfl

theorem handleDrw_setST (x y : Reg) (n : Nibble) (s : State) (v : Byte) :
    handleDrw hardware x y n (s.setST v) = answerWithST v (handleDrw hardware x y n s) := by
  unfold handleDrw
  rw [answerWithST_orRaise]
  rfl

theorem handleLdVxK_setST (x : Reg) (s : State) (v : Byte) :
    handleLdVxK x (s.setST v) = answerWithST v (handleLdVxK x s) := by
  have hkey : (s.setST v).lowestKey = s.lowestKey := rfl
  unfold handleLdVxK
  rw [hkey]
  cases s.lowestKey <;> rfl

/-- Every handler but that of Fx18 does the same whatever `ST` holds, and leaves it there. -/
theorem handle_setST {i : Instr} (hi : ∀ x, i ≠ .ldSTVx x) (s : State) (v : Byte) :
    handle hardware i (s.setST v) = answerWithST v (handle hardware i s) := by
  cases i with
  | ldSTVx x => exact absurd rfl (hi x)
  | ret => exact handleRet_setST s v
  | call nnn => exact handleCall_setST nnn s v
  | ldB x => exact storeAtI_setST s v (bcdDigits (s.reg x))
  | storeRegs x => exact storeAtI_setST s v (s.regsUpTo x)
  | loadRegs x => exact handleLoadRegs_setST x s v
  | drw x y n => exact handleDrw_setST x y n s v
  | ldVxK x => exact handleLdVxK_setST x s v
  | cls | sys | jp | seImm | sneImm | seReg | sneReg | ldImm | addImm | ldReg | orReg | andReg | xorReg | addReg
  | sub | shr | subn | shl | ldI | jpV0 | rnd | skp | sknp | ldVxDT | ldDTVx | addI | ldF => rfl

theorem exec_setST {i : Instr} {s t : State} (h : exec i s = .next t) (v : Byte) (hi : ∀ x, i ≠ .ldSTVx x) :
    exec i (s.setST v) = .next (t.setST v) := by
  rw [exec_eq_finish_handle] at h ⊢
  injection h with h
  rw [handle_setST hi, settle_answerWithST, h]

/-- Fx18 overwrites `ST`, so that the value before it is lost. -/
theorem exec_ldSTVx_setST (x : Reg) (s : State) (v : Byte) : exec (.ldSTVx x) (s.setST v) = exec (.ldSTVx x) s := rfl

/-! ## The timer instructions (R163 to R165) -/

/-- Settles O44: the ticks after Fx18 count V`x` down, and `handle_setST` says that no handler reads `ST`. -/
theorem soundTimerIsSetAndNeverRead : Obligations.SoundTimerIsSetAndNeverRead := by
  unfold Obligations.SoundTimerIsSetAndNeverRead
  refine ⟨fun x s => ?_, fun i s t v h => ?_⟩
  · have hdone : handle hardware (.ldSTVx x) s = .done (s.setST (s.reg x)) .one := rfl
    exact ⟨decode_encode (i := .ldSTVx x) rfl, raisedBy_of_done hdone, _, exec_of_done_one hdone, rfl, rfl,
      frame_advance (frame_setST s _) .one, fun n => count_tonePulse_replicate_tickSound n _⟩
  · cases i with
    | ldSTVx x => exact (exec_ldSTVx_setST x s v).trans h
    | _ => exact exec_setST h v fun _ => nofun

/-- Settles O43: Fx07 writes V`x` alone and Fx15 writes `DT` alone. -/
theorem delayTimerMovesCopyBytes : Obligations.DelayTimerMovesCopyBytes := by
  unfold Obligations.DelayTimerMovesCopyBytes
  intro x s
  have hread : handle hardware (.ldVxDT x) s = writeReg s x s.DT := rfl
  have hwrite : handle hardware (.ldDTVx x) s = .done (s.setDT (s.reg x)) .one := rfl
  exact ⟨decode_encode (i := .ldVxDT x) rfl, decode_encode (i := .ldDTVx x) rfl, raisedBy_of_done hread,
    raisedBy_of_done hwrite, exec_of_writeReg hread,
    _, exec_of_done_one hwrite, rfl, rfl, frame_advance (frame_setDT s _) .one⟩

/-! ## The key skips (R160, R161) -/

theorem isPressed_of_toNat_eq {s : State} {v : Byte} {k : KeyNumber} (h : v.toNat = k.val) :
    s.isPressed v = s.key[k] := by
  rw [Bool.eq_iff_iff, isPressed_iff]
  constructor
  · rintro ⟨j, hj, hkey⟩
    rwa [← Fin.ext (hj.trans h)]
  · exact fun hkey => ⟨k, h.symm, hkey⟩

/-- A number above 15 names no key (D13). -/
theorem isPressed_of_gt {s : State} {v : Byte} (h : 15 < v.toNat) : s.isPressed v = false :=
  dif_neg (Nat.not_lt.2 h)

/-- Settles O41: both handlers hand the state back with the one step code that asks whether V`x` is pressed. -/
theorem keySkipsBothTestPressed : Obligations.KeySkipsBothTestPressed := by
  unfold Obligations.KeySkipsBothTestPressed
  intro x s
  have hskp : handle hardware (.skp x) s = .done s (skipCode (s.isPressed (s.reg x))) := rfl
  obtain ⟨t, hexec, hpc, hframe⟩ := exec_of_done_self hskp (offset_skipCode _)
  refine ⟨t, hexec, hexec, hframe, fun k hk => ?_, fun h => ?_⟩
  · rw [hpc, isPressed_of_toNat_eq hk]
  · rw [hpc, isPressed_of_gt h]
    rfl

/-! ## The key wait (R162) -/

/-- A pressed key with none pressed below it is the one the poll answers. -/
theorem lowestKey_of_least {s : State} {k : KeyNumber} (hk : s.key[k] = true)
    (hleast : ∀ j : KeyNumber, j < k → s.key[j] = false) : s.lowestKey = some k := by
  cases h : s.lowestKey with
  | none => simp [(lowestKey_eq_none s).1 h k] at hk
  | some j =>
    obtain ⟨hj, hjleast⟩ := lowestKey_eq_some s j h
    obtain hlt | rfl | hgt := lt_trichotomy j k
    · simp [hleast j hlt] at hj
    · rfl
    · simp [hjleast k hgt] at hk

theorem keyByte_toNat (k : KeyNumber) : (keyByte k).toNat = k.val :=
  Nat.mod_eq_of_lt (k.isLt.trans (by decide))

theorem handle_ldVxK_of_none {x : Reg} {s : State} (h : s.lowestKey = none) :
    handle hardware (.ldVxK x) s = .done s .zero :=
  handleLdVxK_eq_done.2 (.inl ⟨h, rfl, rfl⟩)

theorem handle_ldVxK_of_some {x : Reg} {s : State} {k : KeyNumber} (h : s.lowestKey = some k) :
    handle hardware (.ldVxK x) s = writeReg s x (keyByte k) :=
  handleLdVxK_eq_done.2 (.inr ⟨k, h, rfl, rfl⟩)

theorem raisedBy_ldVxK (x : Reg) (s : State) : raisedBy (.ldVxK x) s = none := by
  cases h : s.lowestKey with
  | none => exact raisedBy_of_done (handle_ldVxK_of_none h)
  | some k => exact raisedBy_of_done (handle_ldVxK_of_some h)

/-- Settles O42: the poll answers no key exactly when none is down, and the least pressed one otherwise. -/
theorem waitKeyPollsForLeastPressedKey : Obligations.WaitKeyPollsForLeastPressedKey := by
  unfold Obligations.WaitKeyPollsForLeastPressedKey
  intro x s
  refine ⟨decode_encode (i := .ldVxK x) rfl, raisedBy_ldVxK x s, fun hnone => ?_, fun k hk hleast => ?_⟩
  · exact exec_of_done_zero (handle_ldVxK_of_none ((lowestKey_eq_none s).2 hnone))
  · obtain ⟨t, hexec, hx, hpc, hframe⟩ := exec_of_writeReg (handle_ldVxK_of_some (lowestKey_of_least hk hleast))
    exact ⟨t, hexec, by rw [hx, keyByte_toNat], hpc, hframe⟩

end Sys2Proof.Proofs

/-! # Proofs of the family 60_exceptions: which instruction raises which diagnostic, which can change which part of
the state, and the events of timers and keys (60_exceptions.md R170 to R185). -/

namespace Sys2Proof.Proofs

open Sys2Proof.Machine Sys2Proof.Laws

/-! ## Nothing halts the core (R170) -/

/-- Settles O10: a step is a stall, an instruction or a diagnostic, and each of them answers a next state. -/
theorem everyStepAnswersNextState : Obligations.EveryStepAnswersNextState := by
  unfold Obligations.EveryStepAnswersNextState
  exact fun s => ⟨step_next s, fun i => exec_next i s⟩

/-! ## Which handler raises which diagnostic (R171) -/

/-- Where what follows a primitive raises nothing, the primitive's failure is the only diagnostic. -/
theorem orRaise_eq_raised_of_done {α : Type} {d e : Diag} {o : Option α} {k : α → Handled}
    (hk : ∀ a, (k a).diag = none) : orRaise d o k = .raised e ↔ e = d ∧ o = none := by
  rw [orRaise_eq_raised]
  constructor
  · rintro (⟨ho, rfl⟩ | ⟨a, -, ha⟩)
    · exact ⟨rfl, ho⟩
    · have hdiag := hk a
      rw [ha] at hdiag
      contradiction
  · rintro ⟨rfl, ho⟩
    exact .inl ⟨ho, rfl⟩

theorem stackRead_eq_none {s : State} {j : Nat} : s.stackRead j = none ↔ 16 ≤ j := by
  simp [State.stackRead]

theorem stackWrite_eq_none {s : State} {j : Nat} {a : Word} : s.stackWrite j a = none ↔ 16 ≤ j := by
  simp [State.stackWrite]

theorem sp_eq_zero_iff {s : State} : s.sp = 0#8 ↔ s.sp.toNat = 0 := BitVec.toNat_inj.symm

/-- RET raises on the empty stack (40_step_and_control.md R95, D10) and where no slot is numbered `sp` (log 16). -/
theorem handleRet_eq_raised {s : State} {d : Diag} :
    handleRet s = .raised d ↔
      (d = .stackUnderflow ∧ s.sp.toNat = 0) ∨ (d = .stackOverflow ∧ 16 ≤ s.sp.toNat) := by
  unfold handleRet
  split
  · next h =>
    have h0 := sp_eq_zero_iff.1 h
    simp [h0, eq_comm]
  · next h =>
    have h0 := mt sp_eq_zero_iff.2 h
    rw [orRaise_eq_raised_of_done fun _ => rfl, stackRead_eq_none]
    simp [h0]

/-- CALL raises where slot `sp + 1` does not exist (40_step_and_control.md R98, D10). -/
theorem handleCall_eq_raised {nnn : Addr12} {s : State} {d : Diag} :
    handleCall hardware nnn s = .raised d ↔ d = .stackOverflow ∧ 15 ≤ s.sp.toNat := by
  unfold handleCall
  rw [orRaise_eq_raised_of_done fun _ => rfl, stackWrite_eq_none]
  simp

/-- A store raises where its span is not in the program window (20_memory.md R46, D11). -/
theorem storeAtI_eq_raised {s : State} {bytes : List Byte} {d : Diag} :
    storeAtI hardware s bytes = .raised d ↔ d = .invalidAddress ∧ ¬InProg s.I.toNat bytes.length := by
  unfold storeAtI
  rw [orRaise_eq_raised_of_done fun _ => rfl, memWriteOf_eq_none]

theorem handleLdB_eq_raised {x : Reg} {s : State} {d : Diag} :
    handleLdB hardware x s = .raised d ↔ d = .invalidAddress ∧ ¬InProg s.I.toNat 3 := storeAtI_eq_raised

theorem handleStoreRegs_eq_raised {x : Reg} {s : State} {d : Diag} :
    handleStoreRegs hardware x s = .raised d ↔ d = .invalidAddress ∧ ¬InProg s.I.toNat (x.val + 1) := by
  rw [handleStoreRegs, storeAtI_eq_raised, regsUpTo_length]

/-- A register load raises where its span is not in one window (43_index_memory.md R145). -/
theorem handleLoadRegs_eq_raised {x : Reg} {s : State} {d : Diag} :
    handleLoadRegs hardware x s = .raised d ↔
      d = .invalidAddress ∧
        ¬(s.I.toNat + (x.val + 1) ≤ 0x200 ∨ (0x200 ≤ s.I.toNat ∧ s.I.toNat + (x.val + 1) ≤ 0x6A0)) := by
  unfold handleLoadRegs
  rw [orRaise_eq_raised_of_done fun _ => rfl, memRead_eq_none, inOneWindow_iff]

theorem spriteBytes_eq_none {n : Nibble} {s : State} :
    spriteBytes hardware s n = none ↔
      n ≠ 0 ∧ ¬(s.I.toNat + n.toNat ≤ 0x200 ∨ (0x200 ≤ s.I.toNat ∧ s.I.toNat + n.toNat ≤ 0x6A0)) := by
  by_cases hn : n = 0
  · simp [spriteBytes, hn]
  · rw [spriteBytes_of_ne_zero s hn, memRead_eq_none, inOneWindow_iff, and_iff_right hn]

/-- A draw raises where it has rows and their span is not in one window (44_display.md R153, D14). -/
theorem handleDrw_eq_raised {x y : Reg} {n : Nibble} {s : State} {d : Diag} :
    handleDrw hardware x y n s = .raised d ↔
      d = .invalidAddress ∧ n ≠ 0 ∧
        ¬(s.I.toNat + n.toNat ≤ 0x200 ∨ (0x200 ≤ s.I.toNat ∧ s.I.toNat + n.toNat ≤ 0x6A0)) := by
  unfold handleDrw
  rw [orRaise_eq_raised_of_done fun _ => rfl, spriteBytes_eq_none]

theorem raisedBy_eq_some_iff_false {i : Instr} {s : State} {d : Diag} (h : raisedBy i s = none) :
    raisedBy i s = some d ↔ False := by
  simp [h]

/-- Settles O11, by the instruction: the six that can raise have a lemma each, and every other handler is done. -/
theorem diagnosticsRaisedExactly : Obligations.DiagnosticsRaisedExactly := by
  unfold Obligations.DiagnosticsRaisedExactly
  intro i s d
  cases i with
  | ret => exact raisedBy_eq_some.trans handleRet_eq_raised
  | call => exact raisedBy_eq_some.trans handleCall_eq_raised
  | ldB => exact raisedBy_eq_some.trans handleLdB_eq_raised
  | storeRegs => exact raisedBy_eq_some.trans handleStoreRegs_eq_raised
  | loadRegs => exact raisedBy_eq_some.trans handleLoadRegs_eq_raised
  | drw => exact raisedBy_eq_some.trans handleDrw_eq_raised
  | ldVxK x => exact raisedBy_eq_some_iff_false (raisedBy_ldVxK x s)
  | cls | sys | jp | seImm | sneImm | seReg | sneReg | ldImm | addImm | ldReg | orReg | andReg | xorReg | addReg | sub
  | shr | subn | shl | ldI | jpV0 | rnd | skp | sknp | ldVxDT | ldDTVx | ldSTVx | addI | ldF =>
    exact raisedBy_eq_some_iff_false (raisedBy_of_done rfl)

/-! ## Which instruction changes which part (R172, R180) -/

/-- All that instruction `i` can make of `s`: new general registers and a new `pc`, and of every other part only what
instructions of its kind write. -/
inductive Changed (s : State) : Instr → State → Prop where
  | registers {i : Instr} {x : Vector (BitVec Config.vlen) Config.nreg} {pc : Word} :
      Changed s i { s with x := x, pc := pc }
  | delayTimer {x : Reg} {v : Byte} {pc : Word} : Changed s (.ldDTVx x) { s with DT := v, pc := pc }
  | soundTimer {x : Reg} {v : Byte} {pc : Word} : Changed s (.ldSTVx x) { s with ST := v, pc := pc }
  | index {i : Instr} {v pc : Word} (hi : (∃ n, i = .ldI n) ∨ (∃ x, i = .addI x) ∨ ∃ x, i = .ldF x) :
      Changed s i { s with I := v, pc := pc }
  | pop {sp : Byte} {pc : Word} : Changed s .ret { s with sp := sp, pc := pc }
  | push {n : Addr12} {stack : Vector (BitVec Config.pclen) Config.stackSlots} {sp : Byte} {pc : Word} :
      Changed s (.call n) { s with stack := stack, sp := sp, pc := pc }
  | memory {i : Instr} {m : Memory} {pc : Word} (hi : (∃ x, i = .ldB x) ∨ ∃ x, i = .storeRegs x) :
      Changed s i { s with mem := m, pc := pc }
  | display {i : Instr} {f : Framebuffer} {x : Vector (BitVec Config.vlen) Config.nreg} {pc : Word}
      (hi : i = .cls ∨ ∃ x y n, i = .drw x y n) : Changed s i { s with fb := f, x := x, pc := pc }
  | random {r : Reg} {kk : Byte} {x : Vector (BitVec Config.vlen) Config.nreg} {pc : Word} {n : Nat} :
      Changed s (.rnd r kk) { s with x := x, pc := pc, draws := n }

/-- Moving `pc` on is a change that every instruction may make. -/
theorem Changed.advance {s t : State} {i : Instr} (h : Changed s i t) (c : StepCode) : Changed s i (t.advance c) := by
  cases h with
  | registers => exact .registers
  | delayTimer => exact .delayTimer
  | soundTimer => exact .soundTimer
  | index hi => exact .index hi
  | pop => exact .pop
  | push => exact .push
  | memory hi => exact .memory hi
  | display hi => exact .display hi
  | random => exact .random

/-- What a handler is done with differs from the state it was entered in as `Changed` allows. -/
theorem handle_done_changed {i : Instr} {s t : State} {c : StepCode} (h : handle hardware i s = .done t c) :
    Changed s i t := by
  cases i with
  | ret =>
    obtain ⟨-, -, -, rfl⟩ := handleRet_eq_done.1 h
    exact .pop
  | call =>
    obtain ⟨-, -, rfl⟩ := handleCall_eq_done.1 h
    exact .push
  | ldB x =>
    obtain ⟨-, -, rfl⟩ := storeAtI_eq_done.1 h
    exact .memory (.inl ⟨x, rfl⟩)
  | storeRegs x =>
    obtain ⟨-, -, rfl⟩ := storeAtI_eq_done.1 h
    exact .memory (.inr ⟨x, rfl⟩)
  | loadRegs =>
    obtain ⟨-, b, -, rfl⟩ := handleLoadRegs_eq_done.1 h
    rw [setRegsFrom_eq]
    exact .registers
  | drw x y n =>
    obtain ⟨-, b, -, rfl⟩ := handleDrw_eq_done.1 h
    exact .display (.inr ⟨x, y, n, rfl⟩)
  | ldVxK =>
    obtain ⟨-, -, rfl⟩ | ⟨k, -, -, rfl⟩ := handleLdVxK_eq_done.1 h
    · exact .registers
    · exact .registers
  | cls => cases h; exact .display (.inl rfl)
  | rnd => cases h; exact .random
  | ldDTVx => cases h; exact .delayTimer
  | ldSTVx => cases h; exact .soundTimer
  | ldI n => cases h; exact .index (.inl ⟨n, rfl⟩)
  | addI x => cases h; exact .index (.inr (.inl ⟨x, rfl⟩))
  | ldF x => cases h; exact .index (.inr (.inr ⟨x, rfl⟩))
  | sys | jp | jpV0 | seImm | sneImm | seReg | sneReg | ldImm | addImm | ldReg | orReg | andReg | xorReg | addReg | sub
  | shr | subn | shl | skp | sknp | ldVxDT =>
    cases h
    exact .registers

/-- A diagnostic only moves `pc` on; a handler that is done has changed what its instruction may change. -/
theorem exec_changed {i : Instr} {s t : State} (h : exec i s = .next t) : Changed s i t := by
  rw [exec_eq_finish_handle] at h
  injection h with h
  subst h
  cases hh : handle hardware i s with
  | done u c => exact (handle_done_changed hh).advance c
  | raised d => exact .registers

/-- Settles O56: what an instruction makes of the state is one of the nine kinds of `Changed`, and each of them names
the instructions that can write its part. -/
theorem onlyNamedInstructionsChangeEachPart : Obligations.OnlyNamedInstructionsChangeEachPart := by
  unfold Obligations.OnlyNamedInstructionsChangeEachPart
  intro s t i h
  cases exec_changed h with
  | registers | delayTimer | soundTimer | pop | push | random => simp
  | index hi | memory hi | display hi => simpa using fun _ => hi

/-! ## Timer ticks (R182, R183) -/

/-- A delay tick counts down and stays at 0. -/
theorem tickDelay_DT_toNat (s : State) : (tickDelay s).DT.toNat = s.DT.toNat - 1 := by
  unfold tickDelay
  split
  · next h => exact DT_pred_toNat s h
  · next h => omega

theorem tickDelay_eq_setDT (s : State) : tickDelay s = s.setDT (tickDelay s).DT := by
  unfold tickDelay
  split <;> rfl

theorem tickSound_eq_setST (s : State) : tickSound s = s.setST (tickSound s).ST := by
  unfold tickSound
  split <;> rfl

theorem frame_tickDelay (s : State) : Frame [] [.delayTimer] s (tickDelay s) :=
  tickDelay_eq_setDT s ▸ frame_setDT s _

theorem frame_tickSound (s : State) : Frame [] [.soundTimer] s (tickSound s) :=
  tickSound_eq_setST s ▸ frame_setST s _

/-- Settles O45: a tick writes `DT` or nothing. -/
theorem delayTickCountsDownToZero : Obligations.DelayTickCountsDownToZero := by
  unfold Obligations.DelayTickCountsDownToZero
  intro s
  have hpc := (apply_keeps_pc_mem (s := s) (e := .tickDelay) nofun rfl).1
  exact ⟨tickDelay s, rfl, tickDelay_DT_toNat s, hpc, frame_tickDelay s, rfl⟩

/-- Sound ticks in a row count `ST` down one by one and stay at 0. -/
theorem runEvents_replicate_tickSound (n : Nat) (s : State) :
    ∃ t, runEvents s (List.replicate n .tickSound) = .next t ∧ t.ST.toNat = s.ST.toNat - n := by
  induction n generalizing s with
  | zero => exact ⟨s, rfl, rfl⟩
  | succ n ih =>
    obtain ⟨t, hrun, hST⟩ := ih (tickSound s)
    refine ⟨t, hrun, ?_⟩
    rw [hST, tickSound_ST_toNat]
    omega

/-- Settles O46: one tick writes `ST` or nothing, and a row of ticks counts down and pulses by induction on its
length. -/
theorem soundTickPulsesOncePerUnit : Obligations.SoundTickPulsesOncePerUnit := by
  unfold Obligations.SoundTickPulsesOncePerUnit
  intro s
  have hpc := (apply_keeps_pc_mem (s := s) (e := .tickSound) nofun rfl).1
  refine ⟨⟨tickSound s, rfl, tickSound_ST_toNat s, hpc, frame_tickSound s⟩, output_tickSound s, fun n => ?_⟩
  obtain ⟨t, hrun, hST⟩ := runEvents_replicate_tickSound n s
  exact ⟨t, hrun, hST, runOutputs_replicate_tickSound n s⟩

/-! ## Key events (R185) -/

/-- New key flags change no other part. -/
theorem frame_setKeys (s : State) (keys : Vector Bool Config.nkeys) : Frame [] [.keys] s { s with key := keys } where
  registers := fun _ _ => rfl
  others := fun p hp => by
    cases p with
    | keys => exact absurd (List.mem_singleton_self _) hp
    | callStack => exact ⟨rfl, fun _ => rfl⟩
    | memory => exact fun _ => rfl
    | display => exact fun _ _ => rfl
    | index | delayTimer | soundTimer | lastWord | randomDraws => rfl

theorem key_set_getElem (s : State) (k j : KeyNumber) (pressed : Bool) :
    (s.key.set k pressed)[j] = if j = k then pressed else s.key[j] := by
  simp [Vector.getElem_set, Fin.ext_iff, eq_comm]

/-- Setting a flag to the value it has changes nothing. -/
theorem key_set_of_eq {s : State} {k : KeyNumber} {pressed : Bool} (h : s.key[k] = pressed) :
    { s with key := s.key.set k pressed } = s := by
  subst h
  have hkey : s.key.set k s.key[k] = s.key := Vector.set_getElem_self _
  rw [hkey]

/-- Settles O47: both events write the one flag, and the frame holds everything else. -/
theorem keyEventsSetOneFlag : Obligations.KeyEventsSetOneFlag := by
  unfold Obligations.KeyEventsSetOneFlag
  intro k s
  exact ⟨⟨keyPress k s, rfl, rfl, frame_setKeys s _, key_set_of_eq, fun j => key_set_getElem s k j true⟩,
    ⟨keyRelease k s, rfl, rfl, frame_setKeys s _, key_set_of_eq, fun j => key_set_getElem s k j false⟩⟩

end Sys2Proof.Proofs

/-! # Proofs of the family 70_reset_and_hazards: the order of boot events, the states a step leaves as they are, and
the end of a run (70_reset_and_hazards.md R201, R210). -/

namespace Sys2Proof.Proofs

open Sys2Proof.Machine Sys2Proof.Laws

/-! ## The boot order (R201, D22, U14) -/

theorem loadProgram_eq_loadProgramWith (rom : List Byte) (s : State) :
    loadProgram rom s = loadProgramWith font rom s := rfl

theorem react_load_of_next {s t : State} {rom : List Byte} (h : loadProgram rom s = .next t) :
    Session.react (.poweredOn s) (.loadProgram rom) = .next ⟨.running t, .loaded⟩ := by
  rw [Session.react, loadReaction, h]

theorem react_load_of_fault {s : State} {f : Fault} {rom : List Byte} (h : loadProgram rom s = .fault f) :
    Session.react (.poweredOn s) (.loadProgram rom) = .fault f := by
  rw [Session.react, loadReaction, h]

theorem react_run_of_next {s t : State} {e : RunEvent} (h : e.apply s = .next t) :
    Session.react (.running s) (.run e) = .next ⟨.running t, e.output s⟩ := by
  rw [Session.react, runReaction, h]

/-- Settles O50: the load answers by the length of the image, a run event always answers, and each other pair of
session and event is refused by name. -/
theorem sessionAdmitsBootOrderOnly : Obligations.SessionAdmitsBootOrderOnly := by
  unfold Obligations.SessionAdmitsBootOrderOnly
  refine ⟨⟨_, rfl, rfl⟩, fun s rom hfits => ?_, fun s rom hlong => ?_, fun s e => ?_,
    fun _ _ _ => ⟨rfl, rfl, rfl, rfl, rfl, rfl⟩⟩
  · have hload := (loadProgram_eq_loadProgramWith rom s).trans (loadProgramWith_of_le s hfits)
    exact ⟨_, hload, react_load_of_next hload⟩
  · exact react_load_of_fault (loadProgramWith_of_gt s hlong)
  · obtain ⟨t, ht⟩ := apply_next s e
    exact ⟨t, ht, react_run_of_next ht⟩

/-! ## Instructions that leave the state as it is (R210) -/

theorem skipCode_ne_zero (c : Bool) : skipCode c ≠ .zero := by cases c <;> nofun

/-- A step code other than 0 moves `pc` on, by 2 or 4 (R94). -/
theorem advance_ne_of_pc_eq {s t : State} {c : StepCode} (hpc : t.pc = s.pc) (hc : c ≠ .zero) :
    t.advance c ≠ s := by
  intro h
  have hadd : t.pc + c.offset = t.pc := (congrArg (fun u : State => u.pc) h).trans hpc.symm
  have hoff : c.offset = 0 := add_eq_left.1 hadd
  cases c with
  | zero => exact hc rfl
  | one | two => exact absurd hoff (by decide)

/-- Only a jump, a call or a return moves `pc` itself, and each of them answers step code 0 (R92). -/
theorem handle_done_pc_of_ne_zero {i : Instr} {s t : State} {c : StepCode} (h : handle hardware i s = .done t c)
    (hc : c ≠ .zero) : t.pc = s.pc := by
  obtain hkeeps | ⟨-, -, hzero, -⟩ | hret | ⟨nnn, hcall⟩ := handle_done_cases h
  · exact hkeeps.pc
  · exact absurd hzero hc
  · obtain ⟨-, hzero, -⟩ := handleRet_eq_done.1 hret
    exact absurd hzero hc
  · obtain ⟨hzero, -⟩ := handleCall_eq_done.1 hcall
    exact absurd hzero hc

/-- An instruction leaves the state as it is only through step code 0: every other end moves `pc` on. -/
theorem exec_eq_self_iff {i : Instr} {s : State} : exec i s = .next s ↔ handle hardware i s = .done s .zero := by
  refine ⟨fun h => ?_, exec_of_done_zero⟩
  rw [exec_eq_finish_handle] at h
  injection h with h
  cases hh : handle hardware i s with
  | raised d =>
    rw [hh] at h
    exact absurd h (advance_ne_of_pc_eq rfl nofun)
  | done t c =>
    rw [hh, settle_done] at h
    by_cases hc : c = .zero
    · subst hc
      rw [← advance_zero t, h]
    · exact absurd h (advance_ne_of_pc_eq (handle_done_pc_of_ne_zero hh hc) hc)

/-- RET lowers `sp`. -/
theorem handleRet_ne_done_self (s : State) (c : StepCode) : handleRet s ≠ .done s c := by
  intro h
  obtain ⟨hne, -, _, hs⟩ := handleRet_eq_done.1 h
  have hpos : 0 < s.sp.toNat := Nat.pos_of_ne_zero (mt sp_eq_zero_iff.2 hne)
  have hsp : s.sp.toNat = (s.sp - 1#8).toNat := congrArg (fun u : State => u.sp.toNat) hs
  rw [sp_pred_toNat s hpos] at hsp
  omega

/-- CALL raises `sp`. -/
theorem handleCall_ne_done_self (nnn : Addr12) (s : State) (c : StepCode) :
    handleCall hardware nnn s ≠ .done s c := by
  intro h
  obtain ⟨-, hslot, hs⟩ := handleCall_eq_done.1 h
  have hsp : s.sp.toNat = (s.sp + 1#8).toNat := congrArg (fun u : State => u.sp.toNat) hs
  rw [sp_succ_toNat s (by omega)] at hsp
  omega

/-- A jump leaves the state as it is when its target is the address it stands at. -/
theorem done_setPc_eq_done_self_iff {s : State} {a : Word} :
    Handled.done (s.setPc a) .zero = .done s .zero ↔ a.toNat = s.pc.toNat := by
  rw [Handled.done.injEq, and_iff_left rfl, BitVec.toNat_inj]
  exact ⟨fun h => congrArg (·.pc) h, fun h => h ▸ rfl⟩

/-- The instruction leaves `s` as it is: a `SYS`, a jump to the address it stands at, or a key wait with no key
down. -/
def HoldsStill (s : State) : Instr → Prop
  | .sys _ => True
  | .jp nnn => nnn.toNat = s.pc.toNat
  | .jpV0 nnn => (s.reg v0).toNat + nnn.toNat = s.pc.toNat
  | .ldVxK _ => ∀ k : KeyNumber, s.key[k] = false
  | _ => False

/-- By the instruction: every handler but the four of `HoldsStill` answers a step code above 0 or moves `sp`. -/
theorem handle_eq_done_self_zero_iff {i : Instr} {s : State} :
    handle hardware i s = .done s .zero ↔ HoldsStill s i := by
  cases i with
  | sys nnn => exact iff_of_true (handle_sys nnn s) trivial
  | jp nnn => exact done_setPc_eq_done_self_iff.trans (by rw [addrOf_toNat, HoldsStill])
  | jpV0 nnn => exact done_setPc_eq_done_self_iff.trans (by rw [wide_add_addrOf_toNat, HoldsStill])
  | ldVxK x =>
    have hnone : handle hardware (.ldVxK x) s = .done s .zero ↔ s.lowestKey = none :=
      handleLdVxK_eq_done.trans (by simp)
    exact hnone.trans (lowestKey_eq_none s)
  | ret => exact iff_of_false (handleRet_ne_done_self s .zero) id
  | call nnn => exact iff_of_false (handleCall_ne_done_self nnn s .zero) id
  | ldB | storeRegs => exact iff_of_false (fun h => nomatch (storeAtI_eq_done.1 h).1) id
  | loadRegs => exact iff_of_false (fun h => nomatch (handleLoadRegs_eq_done.1 h).1) id
  | drw => exact iff_of_false (fun h => nomatch (handleDrw_eq_done.1 h).1) id
  | seImm | sneImm | seReg | sneReg | skp | sknp =>
    exact iff_of_false (fun h => skipCode_ne_zero _ (Handled.done.inj h).2) id
  | cls | ldImm | addImm | ldReg | orReg | andReg | xorReg | addReg | sub | shr | subn | shl | ldI | rnd | ldVxDT
  | ldDTVx | ldSTVx | addI | ldF =>
    exact iff_of_false (fun h => nomatch (Handled.done.inj h).2) id

/-! ## Parked states (R210) -/

/-- Where a word is fetched, the state is parked exactly when `IR` holds that word already and its instruction leaves
the state as it is. -/
theorem parked_iff_of_fetch_some {s : State} {w : Word} (hf : s.fetch = some w) :
    Parked s ↔ w = s.IR ∧ ∃ i, decode s.IR = .ok i ∧ HoldsStill s i := by
  simp only [← handle_eq_done_self_zero_iff, ← exec_eq_self_iff]
  constructor
  · intro hp
    obtain rfl := (stepLatchesFetchedWord s s hp).1 w hf
    refine ⟨rfl, ?_⟩
    cases hd : decode s.IR with
    | ok i => exact ⟨i, rfl, (step_of_decode_ok hf hd).1.symm.trans hp⟩
    | error e =>
      have hstep : step s = .next (s.advance .one) := (step_of_fetch_some hf).trans (executeWord_of_error hd)
      injection hstep.symm.trans hp with h
      exact absurd h (advance_ne_of_pc_eq rfl nofun)
  · rintro ⟨rfl, i, hd, hexec⟩
    exact (step_of_decode_ok hf hd).1.trans hexec

/-- The three kinds of parked state that fetch a word, by the instruction it decodes to. -/
theorem sysPark_or_selfJump_or_keyWait_iff {s : State} :
    (SysPark s ∨ SelfJump s ∨ KeyWait s) ↔
      s.fetch = some s.IR ∧ ∃ i, decode s.IR = .ok i ∧ HoldsStill s i := by
  constructor
  · rintro (⟨hf, nnn, hd⟩ | ⟨hf, ⟨nnn, hd, hpc⟩ | ⟨nnn, hd, hpc⟩⟩ | ⟨hf, ⟨x, hd⟩, hkeys⟩)
    · exact ⟨hf, .sys nnn, hd, trivial⟩
    · exact ⟨hf, .jp nnn, hd, hpc⟩
    · exact ⟨hf, .jpV0 nnn, hd, hpc⟩
    · exact ⟨hf, .ldVxK x, hd, hkeys⟩
  · rintro ⟨hf, i, hd, hstill⟩
    cases i with
    | sys nnn => exact .inl ⟨hf, nnn, hd⟩
    | jp nnn => exact .inr (.inl ⟨hf, .inl ⟨nnn, hd, hstill⟩⟩)
    | jpV0 nnn => exact .inr (.inl ⟨hf, .inr ⟨nnn, hd, hstill⟩⟩)
    | ldVxK x => exact .inr (.inr ⟨hf, ⟨x, hd⟩, hstill⟩)
    | _ => exact hstill.elim

/-- Settles O59: a failing fetch parks by itself, and a fetched word parks exactly when it is latched already and its
instruction holds still. -/
theorem parkedStatesAreExactlyFourKinds : Obligations.ParkedStatesAreExactlyFourKinds := by
  unfold Obligations.ParkedStatesAreExactlyFourKinds
  intro s
  rw [sysPark_or_selfJump_or_keyWait_iff]
  cases hf : s.fetch with
  | none => exact iff_of_true (step_of_fetch_none hf) (.inl rfl)
  | some w => simp [parked_iff_of_fetch_some hf]

theorem parked_of_runEnded {s : State} (h : RunEnded s) : Parked s := by
  refine (parkedStatesAreExactlyFourKinds s).2 ?_
  obtain hf | hsys | hjump := h
  · exact .inl hf
  · exact .inr (.inl hsys)
  · exact .inr (.inr (.inl hjump))

/-! ## Frames in a row -/

theorem same_trans {s t u : State} {p : Part} (hst : p.Same s t) (htu : p.Same t u) : p.Same s u := by
  cases p with
  | callStack => exact ⟨htu.1.trans hst.1, fun j => (htu.2 j).trans (hst.2 j)⟩
  | memory => exact fun a => (htu a).trans (hst a)
  | display => exact fun r b => (htu r b).trans (hst r b)
  | keys => exact fun k => (htu k).trans (hst k)
  | index | delayTimer | soundTimer | lastWord | randomDraws => exact Eq.trans htu hst

theorem frame_trans {regs : List Reg} {parts : List Part} {s t u : State} (hst : Frame regs parts s t)
    (htu : Frame regs parts t u) : Frame regs parts s u where
  registers := fun r hr => (htu.registers r hr).trans (hst.registers r hr)
  others := fun p hp => same_trans (hst.others p hp) (htu.others p hp)

theorem frame_mono {regs : List Reg} {parts parts' : List Part} {s t : State} (h : Frame regs parts s t)
    (hsub : parts ⊆ parts') : Frame regs parts' s t where
  registers := h.registers
  others := fun p hp => h.others p fun hmem => hp (hsub hmem)

/-! ## The end of a run (R210, D21) -/

/-- From `s` to `t` nothing has changed that ticks, key events and queries leave alone. -/
def KeptBetweenSteps (s t : State) : Prop :=
  t.pc = s.pc ∧ Frame [] [.delayTimer, .soundTimer, .keys] s t

theorem KeptBetweenSteps.refl (s : State) : KeptBetweenSteps s s :=
  ⟨rfl, frame_mono (frame_setPc s s.pc) (List.nil_subset _)⟩

theorem KeptBetweenSteps.trans {s t u : State} (hst : KeptBetweenSteps s t) (htu : KeptBetweenSteps t u) :
    KeptBetweenSteps s u :=
  ⟨htu.1.trans hst.1, frame_trans hst.2 htu.2⟩

theorem apply_keptBetweenSteps {s t : State} {e : RunEvent} (he : e ≠ .step) (h : e.apply s = .next t) :
    KeptBetweenSteps s t := by
  refine ⟨(apply_keeps_pc_mem he h).1, ?_⟩
  cases e with
  | step => exact absurd rfl he
  | tickDelay => cases h; exact frame_mono (frame_tickDelay s) (by simp)
  | tickSound => cases h; exact frame_mono (frame_tickSound s) (by simp)
  | keyPress | keyRelease => cases h; exact frame_mono (frame_setKeys s _) (by simp)
  | snapshot | displayUpdated => cases h; exact (KeptBetweenSteps.refl s).2

/-- A fetch reads `pc` and the bytes of memory alone (R91). -/
theorem fetch_congr_peek {s t : State} (hpc : t.pc = s.pc) (hmem : ∀ a, t.mem.peek a = s.mem.peek a) :
    t.fetch = s.fetch := by
  simp only [State.fetch, fetchWordOf, hpc, hmem]

/-- Whether a run has ended depends on neither the timers nor the keys. -/
theorem KeptBetweenSteps.runEnded {s t : State} (h : KeptBetweenSteps s t) (hs : RunEnded s) : RunEnded t := by
  obtain ⟨hpc, hframe⟩ := h
  have hfetch : t.fetch = s.fetch := fetch_congr_peek hpc (hframe.others .memory (by simp))
  have hIR : t.IR = s.IR := hframe.others .lastWord (by simp)
  have hreg : t.reg v0 = s.reg v0 := hframe.registers v0 (by simp)
  unfold RunEnded SysPark SelfJump at hs ⊢
  rwa [hfetch, hIR, hreg, hpc]

/-- After the end of a run a step changes nothing, and no other event changes what the end depends on. -/
theorem apply_keptBetweenSteps_of_runEnded {s t : State} {e : RunEvent} (hs : RunEnded s) (h : e.apply s = .next t) :
    KeptBetweenSteps s t := by
  by_cases he : e = .step
  · subst he
    cases (parked_of_runEnded hs).symm.trans h
    exact .refl s
  · exact apply_keptBetweenSteps he h

/-- Settles O60, by induction on the run: each of its events keeps what the end of the run depends on. -/
theorem endedRunStaysEnded : Obligations.EndedRunStaysEnded := by
  unfold Obligations.EndedRunStaysEnded
  intro es s t hs h
  have hkept : KeptBetweenSteps s t :=
    runEvents_induction (P := KeptBetweenSteps s)
      (fun _ _ _ hu hv => hu.trans (apply_keptBetweenSteps_of_runEnded (hu.runEnded hs) hv)) es s t (.refl s) h
  exact ⟨hkept.runEnded hs, hkept⟩

end Sys2Proof.Proofs
